-- ==== Sys2Proof/Word.lean ====
section
/-! DEFINITION. The words of the uf8 codec block: the operand words of spec/10_state.md rule R15 as bit
vectors (bit 0 least significant, spec/00_scope.md section 5.1), the names of the three units, and the
input word a caller presents to one of them. -/

namespace Sys2Proof

/-- A 32-bit unsigned word: the counter's `x`, the decoder's output `value` and the encoder's input
`value` (rule R31). -/
abbrev Word := BitVec 32

/-- An 8-bit uf8 code, `eeeemmmm` (rule R30). -/
abbrev Code := BitVec 8

/-- One 4-bit field of a code: the exponent `code[7:4]` or the mantissa `code[3:0]` (rule R30). -/
abbrev Nibble := BitVec 4

/-- The 6-bit output word of the counter (rule R32). -/
abbrev Count := BitVec 6

/-- The three units of rule R1. An operation is selected by which unit a caller drives (rule R36). -/
inductive BlockUnit where
  /-- `leading_zero_counter`, operation `LZC`. -/
  | counter
  /-- `uf8_decoder`, operation `UF8DEC`. -/
  | decoder
  /-- `uf8_encoder`, operation `UF8ENC`. -/
  | encoder
  deriving DecidableEq, Repr

/-- The input word of one evaluation, on the input port of the unit that is driven (the port table of
rule R15). Every bit of it is 0 or 1 (rule R17). -/
inductive InputWord where
  /-- `x[31:0]` of `leading_zero_counter`. -/
  | x (w : Word)
  /-- `code[7:0]` of `uf8_decoder`. -/
  | code (c : Code)
  /-- `value[31:0]` of `uf8_encoder`. -/
  | value (v : Word)
  deriving DecidableEq, Repr

/-- The output word of one evaluation, on the output port of the unit that was driven (the port table
of rule R15). -/
inductive OutputWord where
  /-- `count[5:0]` of `leading_zero_counter`. -/
  | count (n : Count)
  /-- `value[31:0]` of `uf8_decoder`. -/
  | value (v : Word)
  /-- `code[7:0]` of `uf8_encoder`. -/
  | code (c : Code)
  deriving DecidableEq, Repr

end Sys2Proof
end

