-- ==== Sys2Proof/Config.lean ====
section
/-! DEFINITION. What is fixed for this hardware as a shape: the port widths of spec/10_state.md rule R15.
The scheme has no configurable width or precision (spec/00_scope.md rule R2) and no value is left free, so
nothing here is opaque. The numeric parameters of spec/00_scope.md section 4 stand in
Sys2Proof/Machine/Parameters.lean. -/

namespace Sys2Proof

/-- The width of a unit's one input word (rules R15 and R33). -/
def Config.inputWidth : BlockUnit → Nat
  | .counter => 32
  | .decoder => 8
  | .encoder => 32

end Sys2Proof
end

