-- ==== Sys2Proof/Syntax.lean ====
section
/-! DEFINITION. The operations of the block, one constructor for each row of spec/opcode_table.json
(spec/30_encoding.md rule R36): the operation with the fields of its one input word. -/

namespace Sys2Proof

/-- One evaluation: the operation, and its input word taken apart into the fields the table gives it. -/
inductive Instr where
  /-- `LZC` (rule R40): count the leading zero bits of `x[31:0]`. -/
  | lzc (x : Word)
  /-- `UF8DEC` (rule R50): the value of the code with exponent `code[7:4]` and mantissa `code[3:0]`. -/
  | uf8dec (exponent mantissa : Nibble)
  /-- `UF8ENC` (rule R60): the code of `value[31:0]`. -/
  | uf8enc (value : Word)
  deriving DecidableEq, Repr

end Sys2Proof
end

