-- ==== Sys2Proof/WellFormed.lean ====
section
/-! DEFINITION. Which terms are well formed. Every input pattern of every operation is legal
(spec/30_encoding.md rule R37), so every term of `Instr` is; what can be ill formed is a pattern of bits
offered to a unit whose input port has another width (rule R33). -/

namespace Sys2Proof

/-- The unit that performs an operation (the table of rule R36). -/
def Instr.unit : Instr → BlockUnit
  | .lzc _ => .counter
  | .uf8dec _ _ => .decoder
  | .uf8enc _ => .encoder

/-- Well-formedness of an operation: no operand value is reserved or illegal (rule R37). -/
def Instr.wellFormed : Instr → Bool
  | .lzc _ => true
  | .uf8dec _ _ => true
  | .uf8enc _ => true

/-- The pattern is as wide as the unit's input port, the one fixed width of rule R33. -/
def widthFits (u : BlockUnit) (nbits : Nat) : Bool :=
  nbits == Config.inputWidth u

/-- The number `w` is a pattern of `nbits` bits. -/
def numberFits (nbits w : Nat) : Bool :=
  decide (w < 2 ^ nbits)

end Sys2Proof
end

