-- ==== Sys2Proof/Decode.lean ====
section
/-! DEFINITION. From the input word of a unit to the operation and back (spec/30_encoding.md sections 1 to
3): the field extraction of rule R34, the code layout of rule R30, the decoder and the encoder of input
words, and the reader of raw bit patterns that rejects by name what is no word of the unit. Which unit is
driven selects the operation and no bit of a word does (rule R36), so the unit is an argument. -/

namespace Sys2Proof

/-- `exponent <- code >> 4`, that is `code[7:4]` (rule R34). -/
def exponentField (c : Code) : Nibble :=
  (c >>> 4).setWidth 4

/-- `mantissa <- code & 0x0F`, that is `code[3:0]` (rule R34). -/
def mantissaField (c : Code) : Nibble :=
  (c &&& 0x0F#8).setWidth 4

/-- The code with the given fields: `exponent` in the high nibble and `mantissa` in the low one
(rules R21 and R30). -/
def codeOfFields (exponent mantissa : Nibble) : Code :=
  (exponent.setWidth 8 <<< 4) ||| mantissa.setWidth 8

/-- The operation an input word stands for; the port it is on says which (rule R36). Total: every
pattern is legal (rule R37). -/
def decode : InputWord → Instr
  | .x w => .lzc w
  | .code c => .uf8dec (exponentField c) (mantissaField c)
  | .value v => .uf8enc v

/-- The input word that a caller presents for an operation. -/
def encode : Instr → InputWord
  | .lzc x => .x x
  | .uf8dec e m => .code (codeOfFields e m)
  | .uf8enc v => .value v

/-- The unit on whose input port a word is presented. -/
def unitOfInput : InputWord → BlockUnit
  | .x _ => .counter
  | .code _ => .decoder
  | .value _ => .encoder

/-- An input word as a number, bit `i` of weight `2^i` (rules R22 and R31). -/
def inputBits : InputWord → Nat
  | .x w => w.toNat
  | .code c => c.toNat
  | .value v => v.toNat

/-- Why a raw pattern of bits is no input word of a unit. -/
inductive DecodeError where
  /-- The pattern does not have the one width of the unit's input port (rule R33). -/
  | wrongWidth
  /-- The number has a one bit above the pattern's width. -/
  | doesNotFit
  deriving DecidableEq, Repr

/-- What reading a raw pattern of bits gives. -/
inductive DecodeResult where
  /-- The operation read. -/
  | instr (i : Instr)
  /-- The pattern is rejected, and why. -/
  | rejected (why : DecodeError)
  deriving DecidableEq, Repr

/-- The word with the bits of `w` on the input port of unit `u`. -/
def inputOfNat (u : BlockUnit) (w : Nat) : InputWord :=
  match u with
  | .counter => .x (BitVec.ofNat 32 w)
  | .decoder => .code (BitVec.ofNat 8 w)
  | .encoder => .value (BitVec.ofNat 32 w)

/-- The operation read from `nbits` bits, the number `w`, presented to unit `u`; total, rejecting by
name. -/
def decodeBits (u : BlockUnit) (nbits w : Nat) : DecodeResult :=
  if widthFits u nbits then
    if numberFits nbits w then .instr (decode (inputOfNat u w)) else .rejected .doesNotFit
  else .rejected .wrongWidth

/-- The unit that a bare width is taken to name, for a reader that is given no unit. DESIGN CHOICE, log
entry 4: 8 bits are a code; 32 bits go to the encoder, one of the "exactly two pure functions" exposed to
external callers (rule R7), and not to the counter, whose input word has the same width and no bit that
tells the two apart (rule R36). -/
def unitOfWidth (nbits : Nat) : Option BlockUnit :=
  if nbits = 8 then some .decoder
  else if nbits = 32 then some .encoder
  else none

/-- The input word that a bare width and number stand for, by `unitOfWidth`; none where no port takes
it. -/
def tableInput (nbits w : Nat) : Option InputWord :=
  match unitOfWidth nbits with
  | none => none
  | some u => if numberFits nbits w then some (inputOfNat u w) else none

/-- The operation read from the numbering of spec/opcode_table.json. -/
def decodeTableWord (nbits w : Nat) : Option Instr :=
  match tableInput nbits w with
  | none => none
  | some word => some (decode word)

end Sys2Proof
end

