-- ==== Sys2Proof/Machine/Parameters.lean ====
section
/-! DEFINITION. The numeric parameters of spec/00_scope.md section 4, by the names that section gives
them. All are fixed (rule R2). -/

namespace Sys2Proof.Machine

/-- `OFFSET_SEED` (rule R51). -/
def offsetSeed : Word := 0x7FFF

/-- `LZC_ZERO`, the count of an all-zero word (rule R41). The source leaves the value to the implementer
and the spec decides it (D3); log entry 5. -/
def lzcZero : Nat := 32

/-- `UF8_MAX`, the largest decoded value. -/
def uf8Max : Nat := 1015792

/-- `UF8_SAT`, the first value on which the clamp of rule R67 acts (D4; log entry 6). -/
def uf8Sat : Nat := 1048560

/-- The fast-path bound of the encoder's step 1 (rule R61). -/
def fastPathBound : Word := 16

/-- The least `msb` for which step 2 makes an estimate (rule R62). -/
def estimateThreshold : Int := 5

/-- The estimate is `msb` less this (rule R62). -/
def estimateBias : Int := 4

/-- The largest exponent, `code[7:4]` being four bits (rule R30). -/
def maxExponent : Nat := 15

/-- The largest mantissa, `code[3:0]` being four bits (rule R30). -/
def maxMantissa : Word := 15

end Sys2Proof.Machine
end

