-- ==== Sys2Proof/Machine/Operands.lean ====
section
/-! DEFINITION. The operand forms: how the fields and numbers of an evaluation become output words
(spec/30_encoding.md rules R32 and R35; the extraction of rule R34 stands in Sys2Proof/Decode.lean). -/

namespace Sys2Proof.Machine

/-- The count on the 6-bit port, plain binary (rule R32). -/
def countWord (n : Nat) : Count :=
  BitVec.ofNat 6 n

/-- The result code `(exponent << 4) | mantissa` of the encoder's step 5, on eight bits (rule R35). -/
def resultCode (exponent : Nat) (mantissa : Word) : Code :=
  ((BitVec.ofNat 32 exponent <<< 4) ||| mantissa).setWidth 8

/-- The fast path's code, `value[7:0]` (rules R35 and R61). -/
def lowByte (value : Word) : Code :=
  value.setWidth 8

end Sys2Proof.Machine
end

