-- ==== Sys2Proof/Machine/State.lean ====
section
/-! DEFINITION. The state of the model and the state after reset. The hardware holds no state of any kind
(spec/10_state.md rule R10), so State holds no word of an evaluation that is over: it carries the operand
words of the one evaluation in hand, which rule R11 says is all a model needs, and is otherwise empty. -/

namespace Sys2Proof.Machine

/-- The operand words of the evaluation in hand, an input word and an output word of one unit of the port
table of rule R15; with no evaluation in hand it holds nothing, and has that one value only. The host's step
answers a state, so the words of an evaluation stand in one (log entry 1). Neither field is a register: rule
R11 calls the words values, and none says that there is no such word. -/
structure State where
  /-- The input word, on the input port of the unit the caller drives; none when no word is presented: "an
  input that was not supplied is not an evaluation" (rule R17; log entry 2). -/
  input : Option InputWord
  /-- The output word, on that unit's output port; none before the evaluation is made. -/
  output : Option OutputWord
  deriving DecidableEq, Repr

/-- The reasons the hardware faults: there is none, the table of causes is empty (rule R100). -/
inductive Fault where
  deriving DecidableEq, Repr

/-- The reasons the model refuses an operation. -/
inductive Refusal where
  /-- Raised by an arm of `exec` whose operation has no meaning yet; no arm raises it. Safe: the model
  stops where the hardware goes on. -/
  | notModelled (mnemonic : String)
  deriving DecidableEq, Repr

/-- The state after reset: the empty one, "its initial state is the only state, the empty one" (rule R110).
No reset value exists (rule R18), and none is chosen. -/
def State.reset : State where
  input := none
  output := none

end Sys2Proof.Machine
end

