-- ==== Sys2Proof/Machine/Ops.lean ====
section
/-! DEFINITION. The shared operations: presenting an input word and delivering an output word, the offset function and the
forward and inverse offset steps the decoder and the encoder share, and the clamp. There is no memory and
no exception to take or return from (spec/20_memory.md rule R20, spec/60_exceptions.md rules R100, R103 and
R104), so there is no operation for either. -/

namespace Sys2Proof.Machine

/-- The caller presents an input word, or none (rule R9). Nothing of an earlier evaluation is kept
(rule R11). -/
def present (w : Option InputWord) (s : State) : State :=
  { s with input := w, output := none }

/-- An evaluation made: its input word and its output word, and nothing else (rules R5 and R11). -/
def deliver (w : InputWord) (o : OutputWord) : State :=
  { input := some w, output := some o }

/-- The input word whose evaluation is still to be made: the word presented, until there is an output
word. -/
def pending (s : State) : Option InputWord :=
  match s.output with
  | none => s.input
  | some _ => none

/-- `clamp(x, lo, hi) = min(max(x, lo), hi)` (spec/00_scope.md section 5.1). -/
def clamp (x lo hi : Int) : Int :=
  min (max x lo) hi

/-- `offset(e) = (0x7FFF >> (15 - e)) << 4` (rule R51). -/
def offset (e : Nibble) : Word :=
  (offsetSeed >>> (15 - e.toNat)) <<< 4

/-- `(overflow << 1) + 16`: from an exponent's offset to the next one's (rules R52 and R63). -/
def nextOffset (overflow : Word) : Word :=
  (overflow <<< 1) + 16#32

/-- `(overflow - 16) >> 1`: from an exponent's offset to the one before (rules R52 and R64). -/
def prevOffset (overflow : Word) : Word :=
  (overflow - 16#32) >>> 1

end Sys2Proof.Machine
end

