-- ==== Sys2Proof/Machine/Decoder.lean ====
section
/-! DEFINITION. The uf8_decoder unit: `UF8DEC` (spec/41_uf8_decode.md). -/

namespace Sys2Proof.Machine

/-- The value of an exponent and a mantissa: `(mantissa << exponent) + offset` on 32 bits (rule R50). -/
def fieldsValue (exponent mantissa : Nibble) : Word :=
  (mantissa.setWidth 32 <<< exponent.toNat) + offset exponent

/-- `decode(code)` of the spec (rule R50): the fields of rule R34, then their value. -/
def uf8Decode (c : Code) : Word :=
  fieldsValue (exponentField c) (mantissaField c)

/-- `UF8DEC` (rule R50): `value <- decode(code)`, from the operand alone (rule R10). -/
def execUf8dec (exponent mantissa : Nibble) (_s : State) : Host.Outcome State Fault Refusal :=
  .next (deliver (.code (codeOfFields exponent mantissa)) (.value (fieldsValue exponent mantissa)))

end Sys2Proof.Machine
end

