-- ==== Sys2Proof/Machine/Counter.lean ====
section
/-! DEFINITION. The leading_zero_counter unit: `LZC` (spec/40_lzc.md). -/

namespace Sys2Proof.Machine

/-- The loop of rule R40 with bits `remaining - 1` down to 0 still to test and `n` zeros counted. -/
def lzcScan (x : Word) : (remaining n : Nat) → Nat
  | 0, _ => lzcZero
  | i + 1, n => if x.getLsbD i then n else lzcScan x i (n + 1)

/-- `lzc(x)`, in `[0, 32]` (rules R40 and R41). -/
def lzc (x : Word) : Nat :=
  lzcScan x 32 0

/-- `msb(x) = 31 - lzc(x)`, an integer in `[-1, 31]` and no port (rule R42). -/
def msb (x : Word) : Int :=
  31 - (lzc x : Int)

/-- `LZC` (rule R40): `count <- lzc(x)`, from the operand alone (rule R10). -/
def execLzc (x : Word) (_s : State) : Host.Outcome State Fault Refusal :=
  .next (deliver (.x x) (.count (countWord (lzc x))))

end Sys2Proof.Machine
end

