-- ==== Sys2Proof/Machine/Encoder.lean ====
section
/-! DEFINITION. The uf8_encoder unit: `UF8ENC` (spec/42_uf8_encode.md), its five steps and the saturation
in the order of rule R60. Every loop is bounded as rule R70 says. -/

namespace Sys2Proof.Machine

/-- The encoder's running pair: `exponent` in `[0, 15]`, and `overflow`, the spec's name for the running
copy of `offset(exponent)`. Local to one evaluation (rule R11), so no part of State. -/
structure Bucket where
  exponent : Nat
  overflow : Word
  deriving DecidableEq, Repr

/-- Step 2, the estimated exponent: `clamp(msb - 4, 0, 15)` when `msb >= 5`, else 0 (rules R62 and
R63). -/
def estimate (value : Word) : Nat :=
  if msb value ≥ estimateThreshold then
    (clamp (msb value - estimateBias) 0 (maxExponent : Int)).toNat
  else 0

/-- Step 2, `overflow <- (overflow << 1) + 16` the given number of times (rule R63). -/
def accumulate : (times : Nat) → (overflow : Word) → Word
  | 0, overflow => overflow
  | n + 1, overflow => accumulate n (nextOffset overflow)

/-- Step 3, correct downward: while `exponent > 0` and `value < overflow` (rule R64). -/
def stepDown (value : Word) : (exponent : Nat) → (overflow : Word) → Bucket
  | 0, overflow => { exponent := 0, overflow := overflow }
  | e + 1, overflow =>
    if value < overflow then stepDown value e (prevOffset overflow)
    else { exponent := e + 1, overflow := overflow }

/-- Step 4, correct upward, with `remaining` exponents left below 15 (rule R65). -/
def stepUpBy (value : Word) : (remaining : Nat) → (exponent : Nat) → (overflow : Word) → Bucket
  | 0, exponent, overflow => { exponent := exponent, overflow := overflow }
  | r + 1, exponent, overflow =>
    if value < nextOffset overflow then { exponent := exponent, overflow := overflow }
    else stepUpBy value r (exponent + 1) (nextOffset overflow)

/-- Step 4: while `exponent < 15` (rule R65). -/
def stepUp (value : Word) (b : Bucket) : Bucket :=
  stepUpBy value (maxExponent - b.exponent) b.exponent b.overflow

/-- Step 5, `(value - overflow) >> exponent`, before the clamp (rule R66). -/
def rawMantissa (value : Word) (b : Bucket) : Word :=
  (value - b.overflow) >>> b.exponent

/-- Saturation: a mantissa above 15 becomes 15 (rule R67; D4, log entry 6). -/
def clampMantissa (mantissa : Word) : Word :=
  if maxMantissa < mantissa then maxMantissa else mantissa

/-- Step 5 with the clamp: the code of a value in its bucket (rules R66 and R67). -/
def bucketCode (value : Word) (b : Bucket) : Code :=
  resultCode b.exponent (clampMantissa (rawMantissa value b))

/-- Steps 3 and 4 from a starting pair (rule R72). -/
def correct (value : Word) (exponent : Nat) (overflow : Word) : Bucket :=
  stepUp value (stepDown value exponent overflow)

/-- `encode(value)` of the spec (rule R60). -/
def uf8Encode (value : Word) : Code :=
  if value < fastPathBound then lowByte value
  else bucketCode value (correct value (estimate value) (accumulate (estimate value) 0#32))

/-- `UF8ENC` (rule R60): `code <- encode(value)`, from the operand alone (rule R10). -/
def execUf8enc (value : Word) (_s : State) : Host.Outcome State Fault Refusal :=
  .next (deliver (.value value) (.code (uf8Encode value)))

end Sys2Proof.Machine
end

