-- ==== Sys2Proof/Machine/Dispatch.lean ====
section
/-! DEFINITION. The meaning of each operation: one arm per constructor of `Instr`. -/

namespace Sys2Proof.Machine

def exec (i : Instr) (s : State) : Host.Outcome State Fault Refusal :=
  match i with
  | .lzc x => Sys2Proof.Machine.execLzc x s
  | .uf8dec e m => Sys2Proof.Machine.execUf8dec e m s
  | .uf8enc v => Sys2Proof.Machine.execUf8enc v s

end Sys2Proof.Machine
end

