-- ==== Sys2Proof/Machine/Step.lean ====
section
/-! DEFINITION. One step of the model: one evaluation (spec/92_eei_decisions.md D1). -/

namespace Sys2Proof.Machine

/-- One step. With a word presented, the evaluation of the operation it stands for. Otherwise there is no
evaluation to make, and the words of one that is over, "produced, consumed, and discarded per call"
(rule R11), are gone: the state is the empty one (log entries 1 and 2). -/
def step (s : State) : Host.Outcome State Fault Refusal :=
  match pending s with
  | some w => exec (decode w) s
  | none => .next State.reset

/-- `s` with the word that spec/opcode_table.json's numbering names presented by the caller, so that the
next step evaluates it; nothing is presented where no port takes such a word (log entry 4). -/
def State.withFetchWord (s : State) (nbits w : Nat) : State :=
  present (tableInput nbits w) s

end Sys2Proof.Machine
end

