-- ==== Sys2Proof/Safety.lean ====
section
/-! DEFINITION. The terms the statements use: the outputs as functions of the inputs, buckets and slots
of values, and a sequence of evaluations as a caller makes it. -/

namespace Sys2Proof.Machine

/-- The function of the unit that an input word is presented to (rules R40, R50 and R60). -/
def unitFunction : InputWord → OutputWord
  | .x w => .count (countWord (lzc w))
  | .code c => .value (uf8Decode c)
  | .value v => .code (uf8Encode v)

/-- An output word stands only beside an input word, and is the unit's function of it (rule R18). -/
abbrev State.Settled (s : State) : Prop :=
  s.output = none ∨ s.output = s.input.map unitFunction

/-- The unit on whose output port a word stands. -/
def unitOfOutput : OutputWord → BlockUnit
  | .count _ => .counter
  | .value _ => .decoder
  | .code _ => .encoder

/-- A caller's sequence of evaluations from a state: present each word, step, and note the output word
(spec/92_eei_decisions.md D16); none if a step answers no output word. -/
def evaluateAll : List InputWord → State → Option (List OutputWord)
  | [], _ => some []
  | w :: ws, s =>
    match step (present (some w) s) with
    | .next t =>
      match t.output with
      | some o => (evaluateAll ws t).map (fun outs => o :: outs)
      | none => none
    | .fault _ => none
    | .refused _ => none

/-- The value is in `range(e) = [offset(e), offset(e+1))`, and in `[offset(15), 2^32)` for `e = 15`
(rule R53). -/
abbrev InBucket (e : Nibble) (v : Word) : Prop :=
  offset e ≤ v ∧ (e ≠ 15 → v < offset (e + 1))

/-- The value is in the slot of the code: one of `2^e` consecutive values, `decode(c)` the least
(rules R53 and R54). -/
abbrev InSlot (c : Code) (v : Word) : Prop :=
  (uf8Decode c).toNat ≤ v.toNat ∧ v.toNat < (uf8Decode c).toNat + 2 ^ (exponentField c).toNat

/-- The encoder's running pair is an exponent of `[0, 15]` and its offset (rule R68). -/
abbrev Bucket.Consistent (b : Bucket) : Prop :=
  b.exponent ≤ 15 ∧ b.overflow = offset (BitVec.ofNat 4 b.exponent)

end Sys2Proof.Machine
end

