-- ==== Sys2Proof/Certificates/Slice0/Obligations.lean ====
section
/-! DEFINITION. The statements for the provers. Each docstring names the rule of spec/ a statement
formalises, or the section it rests on and the model's choice it uses. There is no register, no memory, no
flag, no mode and no exception register (rules R10, R12, R14, R20 and R100), and a state holds the words of
one evaluation only (rule R11): a statement that gives the state after an evaluation gives all of it, so
that it is its own frame. -/

open Sys2Proof Sys2Proof.Machine

/-! ### The counter -/

/-- Rule R40: the count is the least `k` in `[0, 32]` with `k = 32` or `x[31 - k] = 1`, and
`31 - floor(log2 x)` for `x` other than 0; it goes to the counter's output, the state holds nothing else, and no
exception is raised. The rule's own corner case, 32 for the all-zero word, is the spec's decision D3. -/
def Obligations.LzcCountsLeadingZeros : Prop :=
  ∀ (x : Word) (s : State), ∃ k, k ≤ 32 ∧
    exec (.lzc x) s = .next { input := some (.x x), output := some (.count (BitVec.ofNat 6 k)) } ∧
    (k = 32 ∨ x.getLsbD (31 - k) = true) ∧
    (∀ j, j < k → x.getLsbD (31 - j) = false) ∧
    (x ≠ 0 → k = 31 - x.toNat.log2)

/-- The all-zero word counts 32, so that `msb` is -1: the spec's decision D3 (log entry 5), which the
source leaves to the implementer. -/
def Obligations.LzcOfZeroIsThirtyTwo : Prop :=
  ∀ s : State, exec (.lzc 0) s = .next { input := some (.x 0), output := some (.count 32) } ∧ msb 0 = -1

/-- spec/40_lzc.md section 2 (an inference of the spec's): what the count says of a word other than 0, and
that the bounds determine it. -/
def Obligations.LzcBoundsItsInput : Prop :=
  ∀ (x : Word) (s : State), x ≠ 0 → ∃ n : Count,
    exec (.lzc x) s = .next { input := some (.x x), output := some (.count n) } ∧ n.toNat ≤ 31 ∧
    x.getLsbD (31 - n.toNat) = true ∧
    (∀ i, 31 - n.toNat < i → x.getLsbD i = false) ∧
    2 ^ (31 - n.toNat) ≤ x.toNat ∧ x.toNat < 2 ^ (31 - n.toNat + 1) ∧
    ∀ p, p ≤ 31 → 2 ^ p ≤ x.toNat → x.toNat < 2 ^ (p + 1) → n.toNat = 31 - p

/-- spec/40_lzc.md section 2 with the spec's decisions D3 and D18: `msb` is an integer in `[-1, 31]`, the
position of the highest one bit, and -1 for the all-zero word. -/
def Obligations.MsbIsHighestSetBit : Prop :=
  ∀ x : Word, -1 ≤ msb x ∧ msb x ≤ 31 ∧ (x ≠ 0 → msb x = (x.toNat.log2 : Int)) ∧
    (x = 0 → msb x = -1)

/-! ### The decoder -/

/-- Rule R50, on every code: the value by the rule's two shifts, mask and sum on 32-bit words, which lose
nothing (the same number comes of natural numbers); the state holds nothing else, and no exception is raised. -/
def Obligations.Uf8decComputesValue : Prop :=
  ∀ (c : Code) (s : State), ∃ v : Word,
    exec (decode (.code c)) s = .next { input := some (.code c), output := some (.value v) } ∧
    v = ((c &&& 0x0F#8).setWidth 32 <<< (c >>> 4).toNat) +
      ((0x7FFF#32 >>> (15 - (c >>> 4).toNat)) <<< 4) ∧
    v.toNat = (c.toNat % 16) * 2 ^ (c.toNat / 16) + 0x7FFF / 2 ^ (15 - c.toNat / 16) * 16

/-- spec/41_uf8_decode.md section 2 (inferences of the spec's): from every exponent and mantissa the value
is `((16 + m) << e) - 16`, at most 1015792, with bits 31 to 20 zero. -/
def Obligations.Uf8decClosedForm : Prop :=
  ∀ (e m : Nibble) (s : State), ∃ (c : Code) (v : Word),
    exec (.uf8dec e m) s = .next { input := some (.code c), output := some (.value v) } ∧
    c.toNat = 16 * e.toNat + m.toNat ∧
    v.toNat = (16 + m.toNat) * 2 ^ e.toNat - 16 ∧
    v.toNat ≤ 1015792 ∧ ∀ i, 20 ≤ i → v.getLsbD i = false

/-- Rule R52: each offset from the one before and back, from 0, and the end of the sixteenth group of
slots by the recurrence. -/
def Obligations.OffsetsFollowRecurrence : Prop :=
  offset 0 = 0 ∧
  (∀ e : Nibble, e ≠ 15 →
    (offset (e + 1)).toNat = (offset e).toNat + 16 * 2 ^ e.toNat ∧
    offset (e + 1) = (offset e <<< 1) + 16 ∧
    offset e = (offset (e + 1) - 16) >>> 1) ∧
  (offset 15).toNat + 16 * 2 ^ 15 = 1048560

/-- Rule R53: the sixteen buckets by their numbers, every 32-bit value in exactly one, each cut into
sixteen slots of `2^e` values; in bucket 15 the slots end at 1048560 and the rest is in none. -/
def Obligations.BucketsPartitionValues : Prop :=
  ∀ v : Word, (∃! e : Nibble, InBucket e v) ∧
    (∀ e : Nibble, e ≠ 15 →
      (InBucket e v ↔ 16 * 2 ^ e.toNat - 16 ≤ v.toNat ∧ v.toNat < 32 * 2 ^ e.toNat - 16)) ∧
    (InBucket 15 v ↔ 524272 ≤ v.toNat) ∧
    (∀ e : Nibble, InBucket e v → (e ≠ 15 ∨ v.toNat < 1048560) →
      ∃! m : Nibble, (offset e).toNat + m.toNat * 2 ^ e.toNat ≤ v.toNat ∧
        v.toNat < (offset e).toNat + (m.toNat + 1) * 2 ^ e.toNat) ∧
    (1048560 ≤ v.toNat → ∀ e m : Nibble,
      ¬ ((offset e).toNat + m.toNat * 2 ^ e.toNat ≤ v.toNat ∧
        v.toNat < (offset e).toNat + (m.toNat + 1) * 2 ^ e.toNat))

/-- Rule R85: the 256 slots, each `2^e` consecutive values from `decode(c)` up (`InSlot`), are disjoint and
their union is `[0, 1048560)`; the sixteen buckets partition the 32-bit values; at every bucket boundary
the decoded value rises by the slot size, 15 to 16 at the first. -/
def Obligations.SlotsPartitionValues : Prop :=
  (∀ (v : Word) (c d : Code), InSlot c v → InSlot d v → c = d) ∧
  (∀ v : Word, v.toNat < 1048560 ↔ ∃ c : Code, InSlot c v) ∧
  (∀ v : Word, ∃! e : Nibble, InBucket e v) ∧
  (∀ e : Nibble, e ≠ 15 →
    (uf8Decode (codeOfFields (e + 1) 0)).toNat =
      (uf8Decode (codeOfFields e 15)).toNat + 2 ^ e.toNat) ∧
  uf8Decode 0x0F = 15 ∧ uf8Decode 0x10 = 16

/-- Rule R84: decoding is injective and strictly increasing in the order of codes, and a code and the next
one differ in value by exactly `2^e`. -/
def Obligations.DecodeStrictlyIncreasing : Prop :=
  ∀ (c d : Code) (s : State), ∃ v w : Word,
    exec (decode (.code c)) s = .next { input := some (.code c), output := some (.value v) } ∧
    exec (decode (.code d)) s = .next { input := some (.code d), output := some (.value w) } ∧
    (c < d → v < w) ∧ (v = w → c = d) ∧
    (d.toNat = c.toNat + 1 → w.toNat = v.toNat + 2 ^ (exponentField c).toNat)

/-! ### The encoder -/

/-- Rule R60, on every value: the code of the slot that contains it, or `0xFF` if the value is above every
slot; the state holds nothing else, and no exception is raised. -/
def Obligations.Uf8encFindsTheSlot : Prop :=
  ∀ (v : Word) (s : State), ∃ c : Code,
    exec (.uf8enc v) s = .next { input := some (.value v), output := some (.code c) } ∧
    (InSlot c v ∨ (c = 0xFF ∧ ∀ d : Code, (uf8Decode d).toNat + 2 ^ (exponentField d).toNat ≤ v.toNat))

/-- Rule R89: below 16 a value is its own code, and that code decodes to it. -/
def Obligations.FastPathIsExact : Prop :=
  ∀ (v : Word) (s : State), v.toNat < 16 →
    exec (.uf8enc v) s = .next { input := some (.value v), output := some (.code (v.setWidth 8)) } ∧
    exec (decode (.code (v.setWidth 8))) s =
      .next { input := some (.code (v.setWidth 8)), output := some (.value v) }

/-- spec/42_uf8_encode.md section 3 (an inference of the spec's): the encoder that estimates and corrects
equals the one that takes the value's bucket and clamps the mantissa to 15 (D4, log entry 6). -/
def Obligations.Uf8encClosedForm : Prop :=
  ∀ (v : Word) (e : Nibble) (s : State), InBucket e v → ∃ c : Code,
    exec (.uf8enc v) s = .next { input := some (.value v), output := some (.code c) } ∧
    c.toNat = 16 * e.toNat + min 15 ((v.toNat - (offset e).toNat) / 2 ^ e.toNat)

/-- spec/42_uf8_encode.md section 3 (an inference of the spec's): the exponent without a search, from the
highest set bit of `value + 16` formed without wrap-around. -/
def Obligations.ExponentWithoutSearch : Prop :=
  ∀ (v : Word) (s : State), ∃ c : Code,
    exec (.uf8enc v) s = .next { input := some (.value v), output := some (.code c) } ∧
    (exponentField c).toNat = min 15 ((v.toNat + 16).log2 - 4)

/-- spec/43_codec_laws.md section 4 and the spec's decision D4 (log entry 6): the code is `0xFF` exactly
from 1015792 upward. -/
def Obligations.SaturatesExactlyFromMaximum : Prop :=
  ∀ (v : Word) (s : State), ∃ c : Code,
    exec (.uf8enc v) s = .next { input := some (.value v), output := some (.code c) } ∧
    (c = 0xFF ↔ 1015792 ≤ v.toNat)

/-- spec/42_uf8_encode.md section 2 with spec/40_lzc.md section 3 (inferences of the spec's): past the fast
path `msb` is in `[4, 31]`; step 2 estimates nothing below 32, `msb - 4` below `2^20`, and 15 from there. -/
def Obligations.EstimateOfStepTwo : Prop :=
  ∀ v : Word, 16 ≤ v.toNat →
    4 ≤ msb v ∧ msb v ≤ 31 ∧
    (v.toNat < 32 → estimate v = 0) ∧
    (32 ≤ v.toNat → v.toNat < 2 ^ 20 →
      (estimate v : Int) = msb v - 4 ∧ 1 ≤ estimate v ∧ estimate v ≤ 15) ∧
    (2 ^ 20 ≤ v.toNat → estimate v = 15)

/-- spec/42_uf8_encode.md section 3 (an inference of the spec's): the running pair is an exponent and its
offset after each step, and from the end of step 3 on the offset is not above the value; step 4 ends in the
value's bucket. -/
def Obligations.EncoderInvariant : Prop :=
  ∀ v : Word,
    Bucket.Consistent { exponent := estimate v, overflow := accumulate (estimate v) 0#32 } ∧
    (∀ b : Bucket, b.Consistent →
      (stepDown v b.exponent b.overflow).Consistent ∧
      (stepDown v b.exponent b.overflow).overflow ≤ v) ∧
    (∀ b : Bucket, b.Consistent → b.overflow ≤ v →
      (stepUp v b).Consistent ∧ (stepUp v b).overflow ≤ v ∧
      InBucket (BitVec.ofNat 4 (stepUp v b).exponent) v)

/-- spec/43_codec_laws.md section 1 (inferences of the spec's): no left shift moves a one bit out, no sum
carries and no difference borrows. The decoder's two left shifts, the one in `offset`, and its sum; the
encoder's forward and inverse offset steps from every exponent and its offset; step 5's subtraction, the
clamp's bound, and the left shift that puts the result code together. Right shifts do drop low bits: step
5's rounds down. -/
def Obligations.NoCarryNoBorrow : Prop :=
  (∀ e m : Nibble,
    (m.setWidth 32 <<< e.toNat).toNat = m.toNat * 2 ^ e.toNat ∧
    e.toNat ≤ 15 ∧ (offset e).toNat = (offsetSeed >>> (15 - e.toNat)).toNat * 2 ^ 4 ∧
    (fieldsValue e m).toNat = m.toNat * 2 ^ e.toNat + (offset e).toNat) ∧
  (∀ b : Bucket, b.Consistent →
    (b.overflow <<< 1).toNat = 2 * b.overflow.toNat ∧
    (nextOffset b.overflow).toNat = 2 * b.overflow.toNat + 16 ∧
    (1 ≤ b.exponent → 16 ≤ b.overflow.toNat ∧
      (prevOffset b.overflow).toNat = (b.overflow.toNat - 16) / 2)) ∧
  (∀ v : Word,
    (correct v (estimate v) (accumulate (estimate v) 0#32)).overflow.toNat ≤ v.toNat ∧
    (v - (correct v (estimate v) (accumulate (estimate v) 0#32)).overflow).toNat =
      v.toNat - (correct v (estimate v) (accumulate (estimate v) 0#32)).overflow.toNat) ∧
  (∀ m : Word, (clampMantissa m).toNat ≤ 15) ∧
  ∀ (e : Nat) (m : Word), e ≤ 15 → m.toNat ≤ 15 →
    (BitVec.ofNat 32 e <<< 4).toNat = e * 2 ^ 4 ∧ (resultCode e m).toNat = e * 2 ^ 4 + m.toNat

/-- spec/42_uf8_encode.md section 3 (an inference of the spec's): steps 3 to 5 and the clamp give the same
code from every starting exponent with its offset. -/
def Obligations.EncoderRobustToEstimate : Prop :=
  ∀ (v : Word) (g : Nibble) (s : State), 16 ≤ v.toNat →
    exec (.uf8enc v) s = .next {
      input := some (.value v),
      output := some (.code (bucketCode v (correct v g.toNat (offset g)))) }

/-- spec/42_uf8_encode.md section 3 (an inference of the spec's): with the exact count step 3 never moves,
and step 4 advances at most once, exactly on the top sixteen values below each power of two from `2^5` to
`2^19` (the sixteen below `2^5` are the values for which no estimate is made). -/
def Obligations.EncoderLoopCounts : Prop :=
  ∀ v : Word, 16 ≤ v.toNat →
    stepDown v (estimate v) (accumulate (estimate v) 0#32) =
      { exponent := estimate v, overflow := accumulate (estimate v) 0#32 } ∧
    (∀ k, 5 ≤ k → k ≤ 19 → 2 ^ k - 16 ≤ v.toNat → v.toNat < 2 ^ k →
      (correct v (estimate v) (accumulate (estimate v) 0#32)).exponent = estimate v + 1) ∧
    ((∀ k, 5 ≤ k → k ≤ 19 → ¬ (2 ^ k - 16 ≤ v.toNat ∧ v.toNat < 2 ^ k)) →
      (correct v (estimate v) (accumulate (estimate v) 0#32)).exponent = estimate v)

/-! ### The codec's laws -/

/-- Rule R86: encoding a decoded code, the decoder's output word presented to the encoder, gives the code
back; so every code is some value's code, and decoding is one-to-one. -/
def Obligations.RoundTripOfCodes : Prop :=
  (∀ (c : Code) (s : State), ∃ (t u : State) (v : Word),
    exec (decode (.code c)) s = .next t ∧ t.output = some (.value v) ∧
    exec (decode (.value v)) t = .next u ∧ u.output = some (.code c)) ∧
  (∀ c : Code, ∃ v : Word, uf8Encode v = c) ∧
  ∀ c d : Code, uf8Decode c = uf8Decode d → c = d

/-- Rule R87: decoding an encoded value gives the greatest decoded value not above it; equal to it exactly
when it is a decoded value; 1015792 for every value from there up. -/
def Obligations.QuantisationIsGreatestBelow : Prop :=
  ∀ (v : Word) (s : State), ∃ (t u : State) (c : Code) (q : Word),
    exec (.uf8enc v) s = .next t ∧ t.output = some (.code c) ∧
    exec (decode (.code c)) t = .next u ∧ u.output = some (.value q) ∧
    q ≤ v ∧
    (∀ d : Code, uf8Decode d ≤ v → uf8Decode d ≤ q) ∧
    (q = v ↔ ∃ d : Code, uf8Decode d = v) ∧
    (1015792 ≤ v.toNat → q = 1015792)

/-- spec/43_codec_laws.md section 4 (an inference of the spec's): encoding, decoding and encoding again
gives the first code again. -/
def Obligations.ReencodingIsStable : Prop :=
  ∀ (v : Word) (s : State), ∃ (t u w : State) (c : Code) (q : Word),
    exec (.uf8enc v) s = .next t ∧ t.output = some (.code c) ∧
    exec (decode (.code c)) t = .next u ∧ u.output = some (.value q) ∧
    exec (.uf8enc q) u = .next w ∧ w.output = some (.code c)

/-- spec/43_codec_laws.md section 4 (an inference of the spec's): encoding is non-decreasing, and reaches a
code exactly where the value reaches the code's decoded value. -/
def Obligations.EncodeNonDecreasing : Prop :=
  (∀ (v w : Word) (s : State), v ≤ w → ∃ c d : Code,
    exec (.uf8enc v) s = .next { input := some (.value v), output := some (.code c) } ∧
    exec (.uf8enc w) s = .next { input := some (.value w), output := some (.code d) } ∧ c ≤ d) ∧
  ∀ (c : Code) (v : Word), c ≤ uf8Encode v ↔ uf8Decode c ≤ v

/-- spec/43_codec_laws.md section 2 (an inference of the spec's): below 1048560 the error is less than the
slot size and at most a sixteenth of the value. -/
def Obligations.QuantisationErrorBounds : Prop :=
  ∀ (v : Word) (s : State), v.toNat < 1048560 → ∃ c : Code,
    exec (.uf8enc v) s = .next { input := some (.value v), output := some (.code c) } ∧
    (uf8Decode c).toNat ≤ v.toNat ∧
    v.toNat - (uf8Decode c).toNat ≤ 2 ^ (exponentField c).toNat - 1 ∧
    16 * (v.toNat - (uf8Decode c).toNat) ≤ v.toNat

/-! ### The machine -/

/-- spec/92_eei_decisions.md D1: a step with a word presented is one evaluation, that of the operation the
word decodes to. That the word stands in the state until its step is the model's choice (DESIGN CHOICE, log
entry 2). -/
def Obligations.StepRunsDecodedInstruction : Prop :=
  ∀ (s : State) (w : InputWord), s.input = some w → s.output = none →
    step s = exec (decode w) s

/-- The model's choice (DESIGN CHOICE, log entry 2): with no word presented, no evaluation is made and the
state is the empty one, which is the only settled state with no word presented. -/
def Obligations.StepWithNothingPresentedIsEmpty : Prop :=
  ∀ s : State, s.input = none → step s = .next State.reset ∧ (s.Settled → s = State.reset)

/-- spec/10_state.md section 1, rules R10 and R11 there, in the form log entries 1 and 2 give them: nothing
holds a word after its evaluation. From every operation in every state, the step after the evaluation
answers the empty state; and so do two steps from any state. -/
def Obligations.NothingIsHeldAfterEvaluation : Prop :=
  (∀ (i : Instr) (s : State), ∃ t, exec i s = .next t ∧ step t = .next State.reset) ∧
  ∀ s : State, ∃ t, step s = .next t ∧ step t = .next State.reset

/-- Rule R100: no operation raises an exception for any input, and there is no cause to raise one with. -/
def Obligations.NothingRaisesAnException : Prop :=
  (∀ (i : Instr) (s : State), ∃ t, exec i s = .next t) ∧ (∀ s : State, ∃ t, step s = .next t) ∧
  ∀ _ : Fault, False

/-- spec/10_state.md section 3 and spec/92_eei_decisions.md D12, in the form log entry 1 gives them: every
step keeps it that an output word stands only beside an input word and is the unit's function of it. -/
def Obligations.StepKeepsOutputsSettled : Prop :=
  ∀ s t : State, s.Settled → step s = .next t → t.Settled

/-- spec/70_reset_and_hazards.md section 1: the state after reset is the empty one (DEDUCED, log entry 3), and
has the property every step keeps. -/
def Obligations.ResetIsSettled : Prop :=
  State.reset.Settled ∧ State.reset.input = none ∧ State.reset.output = none

/-- spec/00_scope.md section 7.1: an evaluation writes its own unit's words and nothing else. For LZC, UF8DEC
and UF8ENC alike: the state is its input word on its unit's input port and an output word on that unit's
output port, and no word of another unit. -/
def Obligations.EvaluationWritesItsUnitOnly : Prop :=
  ∀ (i : Instr) (s : State), ∃ o : OutputWord,
    exec i s = .next { input := some (encode i), output := some o } ∧
    unitOfInput (encode i) = i.unit ∧ unitOfOutput o = i.unit

/-- Rule R91: equal inputs give equal outputs, whatever the state and so whatever was evaluated before; all
of the next state is equal. -/
def Obligations.OutputDependsOnInputOnly : Prop :=
  ∀ (i : Instr) (s s' : State), ∃ (t : State) (o : OutputWord),
    exec i s = .next t ∧ exec i s' = .next t ∧ t.output = some o

/-- spec/10_state.md section 3: after an evaluation the state is the input word presented and the unit's
function of it. -/
def Obligations.EvaluationGivesUnitFunction : Prop :=
  ∀ (w : InputWord) (s : State),
    exec (decode w) s = .next { input := some w, output := some (unitFunction w) }

/-- spec/20_memory.md section 6: in a caller's sequence of evaluations, in whatever order, each output is
the function of its own input. -/
def Obligations.SequenceOfEvaluationsIsPointwise : Prop :=
  ∀ (ws : List InputWord) (s : State), evaluateAll ws s = some (ws.map unitFunction)

/-- spec/20_memory.md section 4: evaluations may be reordered, repeated and discarded. An evaluation made
before another makes no difference to it, one made again changes nothing, and a sequence in another order
gives the same outputs in that order. -/
def Obligations.EvaluationsReorderAndRepeat : Prop :=
  (∀ (i j : Instr) (s : State), ∃ t u, exec i s = .next t ∧ exec j t = .next u ∧
    exec j s = .next u) ∧
  (∀ (i : Instr) (s : State), ∃ t, exec i s = .next t ∧ exec i t = .next t) ∧
  ∀ (ws ws' : List InputWord) (s s' : State), ws.Perm ws' → ∃ outs outs' : List OutputWord,
    evaluateAll ws s = some outs ∧ evaluateAll ws' s' = some outs' ∧
    (ws.zip outs).Perm (ws'.zip outs')

/-! ### The words -/

/-- spec/30_encoding.md sections 2 and 3: decoding the input word of an operation gives it back, on every
operand, also from its bits; and every input word is the word of the operation it decodes to. -/
def Obligations.DecodeOfEncode : Prop :=
  (∀ i : Instr, i.wellFormed = true →
    decode (encode i) = i ∧
    decodeBits i.unit (Config.inputWidth i.unit) (inputBits (encode i)) = .instr i) ∧
  ∀ w : InputWord, encode (decode w) = w

/-- Rule R21: the exponent is the high nibble and the mantissa the low one, and the code is 16 times the
exponent plus the mantissa. -/
def Obligations.CodeFieldsLayout : Prop :=
  ∀ c : Code, ∃ e m : Nibble, decode (.code c) = .uf8dec e m ∧
    e = c.extractLsb 7 4 ∧ m = c.extractLsb 3 0 ∧
    e.toNat = (c >>> 4).toNat ∧ m.toNat = (c &&& 0x0F#8).toNat ∧
    c.toNat = 16 * e.toNat + m.toNat

/-- Rule R37: every input pattern of every operation is legal and completes, and no two codes have the same
value. -/
def Obligations.EveryPatternIsLegal : Prop :=
  (∀ (w : InputWord) (s : State), (decode w).wellFormed = true ∧ ∃ t, exec (decode w) s = .next t) ∧
  ∀ c d : Code, uf8Decode c = uf8Decode d → c = d

/-- spec/30_encoding.md section 1: a raw pattern is read exactly when it has its unit's one width, as the
operation of that unit with those bits, and is otherwise rejected by name. -/
def Obligations.RawPatternsReadOrRejected : Prop :=
  ∀ (u : BlockUnit) (nbits w : Nat),
    (nbits ≠ Config.inputWidth u → decodeBits u nbits w = .rejected .wrongWidth) ∧
    (nbits = Config.inputWidth u → 2 ^ nbits ≤ w → decodeBits u nbits w = .rejected .doesNotFit) ∧
    (nbits = Config.inputWidth u → w < 2 ^ nbits → ∃ i : Instr, decodeBits u nbits w = .instr i ∧
      i.unit = u ∧ inputBits (encode i) = w)

/-- spec/30_encoding.md section 3: three words written out bit by bit, each on its unit's port. -/
def Obligations.SampleWordsDecode : Prop :=
  decodeBits .counter 32 0b00000000000000000000011111110000 = .instr (.lzc 2032) ∧
  decodeBits .decoder 8 0b10100111 = .instr (.uf8dec 10 7) ∧
  decodeBits .encoder 32 0b00000000000011110100001001000000 = .instr (.uf8enc 1000000)

/-- The model's choice (DESIGN CHOICE, log entry 4): a word given by its width and number alone is presented
so that the next step runs the operation `decodeTableWord` reads from it. -/
def Obligations.FetchWordIsRunNext : Prop :=
  ∀ (s : State) (nbits w : Nat) (i : Instr), decodeTableWord nbits w = some i →
    step (s.withFetchWord nbits w) = exec i (s.withFetchWord nbits w) ∧
    step (s.withFetchWord nbits w) = exec i s
end

