-- ==== Sys2Proof/Laws/Counter.lean ====
section
/-! SUPPORT. The count: which number it is (spec/40_lzc.md rule R40) and what it says of the word
(rule R43). -/

namespace Sys2Proof.Machine

/-- From where the loop stands, the count is the number counted so far plus the zeros up to the first one
bit still to test. -/
theorem lzcScan_spec (x : Word) (remaining n : Nat) (h : n + remaining = 32) :
    n ≤ lzcScan x remaining n ∧ lzcScan x remaining n ≤ 32 ∧
      (lzcScan x remaining n < 32 → x.getLsbD (31 - lzcScan x remaining n) = true) ∧
      ∀ j, n ≤ j → j < lzcScan x remaining n → x.getLsbD (31 - j) = false := by
  induction remaining generalizing n with
  | zero =>
    simp only [lzcScan, lzcZero]
    exact ⟨by omega, by omega, by omega, fun j hn hj => by omega⟩
  | succ i ih =>
    have hi : 31 - n = i := by omega
    simp only [lzcScan]
    split
    · rename_i hbit
      exact ⟨le_rfl, by omega, fun _ => hi ▸ hbit, fun j hn hj => by omega⟩
    · rename_i hbit
      obtain ⟨hle, h32, hone, hzero⟩ := ih (n + 1) (by omega)
      refine ⟨by omega, h32, hone, fun j hn hj => ?_⟩
      rcases Nat.eq_or_lt_of_le hn with rfl | hlt
      · rw [hi]; simpa using hbit
      · exact hzero j hlt hj

/-- `lzc(x)` is the least `k` in `[0, 32]` with `k = 32` or `x[31 - k] = 1`. -/
theorem lzc_spec (x : Word) :
    lzc x ≤ 32 ∧ (lzc x < 32 → x.getLsbD (31 - lzc x) = true) ∧
      ∀ j, j < lzc x → x.getLsbD (31 - j) = false := by
  obtain ⟨-, h32, hone, hzero⟩ := lzcScan_spec x 32 0 rfl
  exact ⟨h32, hone, fun j hj => hzero j (Nat.zero_le j) hj⟩

theorem lzc_le (x : Word) : lzc x ≤ 32 := (lzc_spec x).1

theorem lzc_upper_bound (x : Word) : x.toNat < 2 ^ (32 - lzc x) := by
  obtain ⟨h32, -, hzero⟩ := lzc_spec x
  refine Nat.lt_pow_two_of_testBit _ fun i hi => ?_
  rcases Nat.lt_or_ge i 32 with h | h
  · have := hzero (31 - i) (by omega)
    rwa [show 31 - (31 - i) = i by omega] at this
  · exact Nat.testBit_lt_two_pow (lt_of_lt_of_le x.isLt (Nat.pow_le_pow_right (by omega) h))

theorem lzc_lower_bound (x : Word) (h : lzc x < 32) : 2 ^ (31 - lzc x) ≤ x.toNat :=
  Nat.ge_two_pow_of_testBit ((lzc_spec x).2.1 h)

theorem lzc_lt_of_ne_zero (x : Word) (h : x ≠ 0) : lzc x < 32 := by
  have := lzc_upper_bound x
  have := lzc_le x
  by_contra hc
  have h32 : lzc x = 32 := by omega
  have h0 : x.toNat = 0 := by simp_all
  exact h (BitVec.eq_of_toNat_eq h0)

theorem lzc_eq_log2 (x : Word) (h : x ≠ 0) : lzc x = 31 - x.toNat.log2 := by
  have hlt := lzc_lt_of_ne_zero x h
  have hlog : x.toNat.log2 = 31 - lzc x := by
    have hup := lzc_upper_bound x
    rw [show 32 - lzc x = 31 - lzc x + 1 by omega] at hup
    have hlow := lzc_lower_bound x hlt
    have hx : x.toNat ≠ 0 := fun h0 => h (BitVec.eq_of_toNat_eq h0)
    exact (Nat.log2_eq_iff hx).2 ⟨hlow, hup⟩
  omega

end Sys2Proof.Machine
end

