-- ==== Sys2Proof/Laws/Codec.lean ====
section
/-! SUPPORT. The offsets as numbers (spec/41_uf8_decode.md rules R51 and R52), and what each step of the
encoder does to its running pair (spec/42_uf8_encode.md rules R62 to R66): one lemma per operation. -/

namespace Sys2Proof.Machine

/-- `overflow` is the offset `16·2^e - 16` of the exponent, written without subtraction. -/
def AtOffset (exponent : Nat) (overflow : Word) : Prop :=
  overflow.toNat + 16 = 16 * 2 ^ exponent

theorem offset_toNat (e : Nibble) : (offset e).toNat = 16 * 2 ^ e.toNat - 16 := by
  revert e
  decide +kernel

theorem atOffset_offset (e : Nibble) : AtOffset e.toNat (offset e) := by
  have := Nat.one_le_two_pow (n := e.toNat)
  rw [AtOffset, offset_toNat]
  omega

theorem atOffset_zero : AtOffset 0 0#32 := rfl

theorem two_pow_le_of_le_fifteen {e : Nat} (h : e ≤ 15) : 2 ^ e ≤ 32768 :=
  Nat.pow_le_pow_right (n := 2) (by omega) h

theorem nextOffset_toNat (overflow : Word) (h : overflow.toNat < 2147483640) :
    (nextOffset overflow).toNat = 2 * overflow.toNat + 16 := by
  simp only [nextOffset, BitVec.toNat_add, BitVec.toNat_shiftLeft, BitVec.toNat_ofNat,
    Nat.shiftLeft_eq]
  omega

theorem prevOffset_toNat (overflow : Word) (h : 16 ≤ overflow.toNat) :
    (prevOffset overflow).toNat = (overflow.toNat - 16) / 2 := by
  have := overflow.isLt
  simp only [prevOffset, BitVec.toNat_ushiftRight, BitVec.toNat_sub, BitVec.toNat_ofNat,
    Nat.shiftRight_eq_div_pow]
  omega

theorem AtOffset_next {e : Nat} {overflow : Word} (he : e ≤ 15) (h : AtOffset e overflow) :
    AtOffset (e + 1) (nextOffset overflow) := by
  have := two_pow_le_of_le_fifteen he
  rw [AtOffset] at h ⊢
  rw [nextOffset_toNat overflow (by omega), Nat.pow_succ]
  omega

theorem AtOffset_prev {e : Nat} {overflow : Word} (h : AtOffset (e + 1) overflow) :
    AtOffset e (prevOffset overflow) := by
  have := Nat.one_le_two_pow (n := e)
  rw [AtOffset, Nat.pow_succ] at h
  rw [AtOffset, prevOffset_toNat overflow (by omega)]
  omega

/-- Step 2 ends at the offset of the exponent it was given. -/
theorem accumulate_atOffset (n e : Nat) (overflow : Word) (h : AtOffset e overflow)
    (hn : e + n ≤ 15) : AtOffset (e + n) (accumulate n overflow) := by
  induction n generalizing e overflow with
  | zero => exact h
  | succ n ih =>
    have := ih (e + 1) (nextOffset overflow) (AtOffset_next (by omega) h) (by omega)
    rwa [Nat.add_right_comm] at this

theorem clamp_bounds (x lo hi : Int) (h : lo ≤ hi) : lo ≤ clamp x lo hi ∧ clamp x lo hi ≤ hi := by
  simp only [clamp]
  omega

theorem estimate_of_msb_lt (value : Word) (h : msb value < 5) : estimate value = 0 :=
  if_neg (fun h' : msb value ≥ estimateThreshold => by
    have : (5 : Int) ≤ msb value := h'
    omega)

theorem estimate_of_le_msb (value : Word) (h : 5 ≤ msb value) :
    (estimate value : Int) = min (msb value - 4) 15 := by
  have hif : estimate value = (clamp (msb value - 4) 0 15).toNat :=
    if_pos (show msb value ≥ estimateThreshold from h)
  rw [hif, clamp]
  omega

theorem estimate_le (value : Word) : estimate value ≤ 15 := by
  rcases lt_or_ge (msb value) 5 with h | h
  · have := estimate_of_msb_lt value h
    omega
  · have := estimate_of_le_msb value h
    omega

/-- Step 3 keeps the pair an exponent and its offset, ends at a bucket not above the value, and where it
moved at all the value is below the next bucket. -/
theorem stepDown_spec (value : Word) (e : Nat) (overflow : Word) (h : AtOffset e overflow) :
    AtOffset (stepDown value e overflow).exponent (stepDown value e overflow).overflow ∧
      (stepDown value e overflow).exponent ≤ e ∧
      (stepDown value e overflow).overflow.toNat ≤ value.toNat ∧
      ((stepDown value e overflow).exponent < e →
        value.toNat + 16 < 16 * 2 ^ ((stepDown value e overflow).exponent + 1)) := by
  induction e generalizing overflow with
  | zero =>
    simp only [stepDown]
    rw [AtOffset] at h
    exact ⟨h, le_rfl, by omega, by omega⟩
  | succ e ih =>
    simp only [stepDown]
    split
    · rename_i hlt
      obtain ⟨hat, hle, hval, hmoved⟩ := ih (prevOffset overflow) (AtOffset_prev h)
      refine ⟨hat, by omega, hval, fun _ => ?_⟩
      rcases Nat.eq_or_lt_of_le hle with heq | hlt'
      · rw [AtOffset] at h
        have : value.toNat < overflow.toNat := hlt
        rw [heq]
        omega
      · exact hmoved hlt'
    · rename_i hge
      have : overflow.toNat ≤ value.toNat := Nat.le_of_not_lt hge
      exact ⟨h, le_rfl, this, fun hlt => absurd hlt (lt_irrefl _)⟩

/-- Step 4 keeps the pair an exponent and its offset not above the value, never lowers the exponent, and
ends at 15 or below the next bucket. -/
theorem stepUpBy_spec (value : Word) (r e : Nat) (overflow : Word) (hr : e + r = 15)
    (h : AtOffset e overflow) (hval : overflow.toNat ≤ value.toNat) :
    AtOffset (stepUpBy value r e overflow).exponent (stepUpBy value r e overflow).overflow ∧
      e ≤ (stepUpBy value r e overflow).exponent ∧
      (stepUpBy value r e overflow).exponent ≤ 15 ∧
      (stepUpBy value r e overflow).overflow.toNat ≤ value.toNat ∧
      ((stepUpBy value r e overflow).exponent < 15 →
        value.toNat + 16 < 16 * 2 ^ ((stepUpBy value r e overflow).exponent + 1)) := by
  induction r generalizing e overflow with
  | zero =>
    simp only [stepUpBy]
    exact ⟨h, le_rfl, by omega, hval, by omega⟩
  | succ r ih =>
    have hnext := AtOffset_next (show e ≤ 15 by omega) h
    simp only [stepUpBy]
    split
    · rename_i hlt
      have hlt' : value.toNat < (nextOffset overflow).toNat := hlt
      rw [AtOffset] at hnext
      exact ⟨h, le_rfl, show e ≤ 15 by omega, hval,
        fun _ => show value.toNat + 16 < 16 * 2 ^ (e + 1) by omega⟩
    · rename_i hge
      have hge' : (nextOffset overflow).toNat ≤ value.toNat := Nat.le_of_not_lt hge
      obtain ⟨hat, hle, h15, hval', hend⟩ := ih (e + 1) (nextOffset overflow) (by omega) hnext hge'
      exact ⟨hat, by omega, h15, hval', hend⟩

/-- Steps 3 and 4, from an exponent and its offset, end at the bucket that holds the value. -/
theorem correct_spec (value : Word) (e : Nat) (overflow : Word) (he : e ≤ 15)
    (h : AtOffset e overflow) :
    AtOffset (correct value e overflow).exponent (correct value e overflow).overflow ∧
      (correct value e overflow).exponent ≤ 15 ∧
      (correct value e overflow).overflow.toNat ≤ value.toNat ∧
      ((correct value e overflow).exponent < 15 →
        value.toNat + 16 < 16 * 2 ^ ((correct value e overflow).exponent + 1)) := by
  obtain ⟨hat, hle, hval, -⟩ := stepDown_spec value e overflow h
  obtain ⟨hat', -, h15, hval', hend⟩ := stepUpBy_spec value
    (15 - (stepDown value e overflow).exponent) _ _ (by omega) hat hval
  exact ⟨hat', h15, hval', hend⟩

/-- A value lies in one bucket only. -/
theorem bucket_exponent_unique (v e f : Nat) (he : 16 * 2 ^ e ≤ v + 16) (hf : 16 * 2 ^ f ≤ v + 16)
    (he' : e < 15 → v + 16 < 16 * 2 ^ (e + 1)) (hf' : f < 15 → v + 16 < 16 * 2 ^ (f + 1))
    (he15 : e ≤ 15) (hf15 : f ≤ 15) : e = f := by
  rcases Nat.lt_trichotomy e f with h | h | h
  · have : 2 ^ (e + 1) ≤ 2 ^ f := Nat.pow_le_pow_right (by omega) h
    have := he' (by omega)
    omega
  · exact h
  · have : 2 ^ (f + 1) ≤ 2 ^ e := Nat.pow_le_pow_right (by omega) h
    have := hf' (by omega)
    omega

/-- Step 5 before the clamp, as a number: no borrow, and division by the slot size. -/
theorem rawMantissa_toNat (value : Word) (b : Bucket) (h : b.overflow.toNat ≤ value.toNat) :
    (rawMantissa value b).toNat = (value.toNat - b.overflow.toNat) / 2 ^ b.exponent := by
  have := value.isLt
  simp only [rawMantissa, BitVec.toNat_ushiftRight, Nat.shiftRight_eq_div_pow,
    BitVec.toNat_sub_of_le (BitVec.le_def.2 h)]

theorem clampMantissa_toNat (mantissa : Word) :
    (clampMantissa mantissa).toNat = min 15 mantissa.toNat := by
  have h15 : maxMantissa.toNat = 15 := rfl
  simp only [clampMantissa]
  split
  · rename_i h
    have : maxMantissa.toNat < mantissa.toNat := h
    omega
  · rename_i h
    have : mantissa.toNat ≤ maxMantissa.toNat := Nat.le_of_not_lt h
    omega

end Sys2Proof.Machine
end

