-- ==== Sys2Proof/Laws/State.lean ====
section
/-! SUPPORT. What each operation on the state leaves in each field of State, and which word is pending, so
that no later proof unfolds a record update. -/

namespace Sys2Proof.Machine

theorem State.eq_of_fields (s t : State) (hi : s.input = t.input) (ho : s.output = t.output) :
    s = t := by
  cases s
  cases t
  simp_all

@[simp] theorem reset_input : State.reset.input = none := rfl
@[simp] theorem reset_output : State.reset.output = none := rfl

@[simp] theorem present_input (w : Option InputWord) (s : State) : (present w s).input = w := rfl
@[simp] theorem present_output (w : Option InputWord) (s : State) : (present w s).output = none := rfl

@[simp] theorem deliver_input (w : InputWord) (o : OutputWord) : (deliver w o).input = some w := rfl
@[simp] theorem deliver_output (w : InputWord) (o : OutputWord) : (deliver w o).output = some o := rfl

@[simp] theorem pending_reset : pending State.reset = none := rfl
@[simp] theorem pending_present (w : Option InputWord) (s : State) : pending (present w s) = w := rfl
@[simp] theorem pending_deliver (w : InputWord) (o : OutputWord) : pending (deliver w o) = none := rfl

/-- A word is pending exactly when it is presented and there is no output word yet. -/
theorem pending_eq_some (s : State) (w : InputWord) :
    pending s = some w ↔ s.input = some w ∧ s.output = none := by
  cases h : s.output <;> simp [pending, h]

end Sys2Proof.Machine
end

