-- ==== Sys2Proof/Laws/Exec.lean ====
section
/-! SUPPORT. What each operation answers, as an equation over the shared operations, so that no later proof
unfolds `exec`. -/

namespace Sys2Proof.Machine

variable (s : State)

@[simp] theorem exec_lzc (x : Word) :
    exec (.lzc x) s = .next (deliver (.x x) (.count (countWord (lzc x)))) := rfl

@[simp] theorem exec_uf8dec (e m : Nibble) :
    exec (.uf8dec e m) s =
      .next (deliver (.code (codeOfFields e m)) (.value (fieldsValue e m))) := rfl

@[simp] theorem exec_uf8enc (v : Word) :
    exec (.uf8enc v) s = .next (deliver (.value v) (.code (uf8Encode v))) := rfl

end Sys2Proof.Machine
end

