-- ==== Sys2Proof/Laws/PerInstr.lean ====
section
/-! SUPPORT. Families of statements made per operation. -/

namespace Sys2Proof

/-- The operation is well formed, its input word goes to its own unit's input port, and the word is no
wider than that port (spec/30_encoding.md rules R33, R36 and R37). -/
def Laws.InputWordFits.Statement (i : Instr) : Prop :=
  i.wellFormed = true ∧ unitOfInput (encode i) = i.unit ∧
    inputBits (encode i) < 2 ^ Config.inputWidth i.unit

theorem Laws.InputWordFits.lzc (x : Word) : Laws.InputWordFits.Statement (.lzc x) :=
  ⟨rfl, rfl, x.isLt⟩

theorem Laws.InputWordFits.uf8dec (exponent mantissa : Nibble) :
    Laws.InputWordFits.Statement (.uf8dec exponent mantissa) :=
  ⟨rfl, rfl, (codeOfFields exponent mantissa).isLt⟩

theorem Laws.InputWordFits.uf8enc (value : Word) : Laws.InputWordFits.Statement (.uf8enc value) :=
  ⟨rfl, rfl, value.isLt⟩

end Sys2Proof
end

