-- ==== Sys2Proof/Laws/Words.lean ====
section
/-! SUPPORT. What the fields of a code, the assembled code and the result code are as numbers
(spec/30_encoding.md rules R30, R34 and R35). -/

namespace Sys2Proof

theorem exponentField_toNat (c : Code) : (exponentField c).toNat = c.toNat / 16 := by
  have := c.isLt
  simp only [exponentField, BitVec.toNat_setWidth, BitVec.toNat_ushiftRight,
    Nat.shiftRight_eq_div_pow]
  omega

theorem mantissaField_toNat (c : Code) : (mantissaField c).toNat = c.toNat % 16 := by
  have h : c.toNat &&& 15 = c.toNat % 16 := Nat.and_two_pow_sub_one_eq_mod c.toNat 4
  simp only [mantissaField, BitVec.toNat_setWidth, BitVec.toNat_and, BitVec.toNat_ofNat]
  norm_num [h]

theorem codeOfFields_toNat (e m : Nibble) : (codeOfFields e m).toNat = 16 * e.toNat + m.toNat := by
  revert e m
  decide +kernel

namespace Machine

theorem resultCode_eq_codeOfFields (e m : Nibble) :
    resultCode e.toNat (m.setWidth 32) = codeOfFields e m := by
  revert e m
  decide +kernel

theorem resultCode_toNat (exponent : Nat) (mantissa : Word) (he : exponent ≤ 15)
    (hm : mantissa.toNat ≤ 15) :
    (resultCode exponent mantissa).toNat = 16 * exponent + mantissa.toNat := by
  have hm' : mantissa = (mantissa.setWidth 4).setWidth 32 := by
    apply BitVec.eq_of_toNat_eq
    simp only [BitVec.toNat_setWidth]
    omega
  have he' : exponent = (BitVec.ofNat 4 exponent).toNat := by
    simp only [BitVec.toNat_ofNat]
    omega
  have h := codeOfFields_toNat (BitVec.ofNat 4 exponent) (mantissa.setWidth 4)
  rw [← resultCode_eq_codeOfFields, ← he', ← hm'] at h
  rw [h, BitVec.toNat_setWidth]
  omega

theorem lowByte_toNat (value : Word) : (lowByte value).toNat = value.toNat % 256 := by
  simp [lowByte]

end Machine

end Sys2Proof
end

