-- ==== Sys2Proof/Tests/Slice0.lean ====
section
/-! SUPPORT. Small tests. Expected results are the spec's own: the vectors of spec/95_test_vectors.md and the
encodings of spec/30_encoding.md. The witnesses at the end meet the hypotheses of the statements. -/

namespace Sys2Proof.Tests

open Sys2Proof.Machine

/-- The state an outcome answers, if it answers one. -/
def stateOf : Host.Outcome State Fault Refusal → Option State
  | .next t => some t
  | .fault _ => none
  | .refused _ => none

/-- The output word of one step from reset with a word presented. -/
def runWord (w : InputWord) : Option OutputWord :=
  (stateOf (step (present (some w) State.reset))).bind State.output

/-! ### Well-formedness: what each check refuses -/

/-- Rule R37: no operation is ill formed. -/
theorem test_every_operation_is_well_formed (i : Instr) : i.wellFormed = true := by
  cases i <;> rfl

/-- Rule R33: a 32-bit word is no input of the decoder, nor an 8-bit word of the encoder. -/
theorem test_wrong_width_is_refused :
    widthFits .decoder 32 = false ∧ decodeBits .decoder 32 0xA7 = .rejected .wrongWidth ∧
      decodeBits .encoder 8 0xA7 = .rejected .wrongWidth := by decide

/-- A number of nine bits is no pattern of eight. -/
theorem test_too_large_a_number_is_refused :
    numberFits 8 0x1A7 = false ∧ decodeBits .decoder 8 0x1A7 = .rejected .doesNotFit := by decide

/-! ### Decoding: words written out from the formats of rules R30 and R31 -/

/-- `eeeemmmm` with `e = 1010` and `m = 0111` (program P1). -/
theorem test_decode_code_word : decode (.code 0b10100111) = .uf8dec 0b1010 0b0111 := by decide

/-- The 32-bit words of programs P4 and P3, on the counter's and the encoder's ports. -/
theorem test_decode_words :
    decode (.x 0b00000000000000000000011111110000) = .lzc 0x000007F0 ∧
      decode (.value 0b00000000000011110100001001000000) = .uf8enc 0x000F4240 := by decide

/-- The encoder of words on the same: rules R30 and R31. -/
theorem test_encode_words :
    encode (.uf8dec 10 7) = .code 0xA7 ∧ encode (.lzc 2032) = .x 2032 ∧
      encode (.uf8enc 23536) = .value 0x00005BF0 := by decide

/-- A bare width and number (log entry 4): 8 bits a code, 32 bits a value, any other width nothing. -/
theorem test_table_words :
    decodeTableWord 8 0x5F = some (.uf8dec 5 15) ∧ decodeTableWord 32 1000 = some (.uf8enc 1000) ∧
      decodeTableWord 16 0 = none ∧ decodeTableWord 8 256 = none := by decide

/-! ### The operations -/

/-- Worked example of rule R40. -/
theorem test_lzc_of_1000 : runWord (.x 1000) = some (.count 22) := by decide

/-- Section 2.1: the all-zero word, the lowest bit, the top bit. -/
theorem test_lzc_corners :
    runWord (.x 0) = some (.count 32) ∧ runWord (.x 1) = some (.count 31) ∧
      runWord (.x 0x80000001) = some (.count 0) := by decide

/-- Worked example of rule R50, and its largest value. -/
theorem test_uf8dec_values :
    runWord (.code 0x5F) = some (.value 976) ∧
      runWord (.code 0xFF) = some (.value 1015792) := by decide

/-- Conflict C1: 46, not the source's 31. -/
theorem test_uf8dec_of_0x1F : runWord (.code 0x1F) = some (.value 46) := by decide

/-- Worked example of rule R60, and an input where step 4 advances (program P4). -/
theorem test_uf8enc_values :
    runWord (.value 1000) = some (.code 0x5F) ∧
      runWord (.value 2032) = some (.code 0x70) := by decide

/-- Program P5 and conflict C1: the clamp, the last code below `0xFF`, and `0x17` for 31. -/
theorem test_uf8enc_corners :
    runWord (.value 0xFFFFFFFF) = some (.code 0xFF) ∧
      runWord (.value 1048560) = some (.code 0xFF) ∧
      runWord (.value 1015791) = some (.code 0xFE) ∧
      runWord (.value 31) = some (.code 0x17) := by decide

/-- Section 2.3, saturation: the unclamped mantissa is 16 at 1048560 and 131056 at the greatest input. -/
theorem test_raw_mantissa_before_clamp :
    (rawMantissa 1048560 { exponent := 15, overflow := 524272 }) = 16 ∧
      (rawMantissa 0xFFFFFFFF { exponent := 15, overflow := 524272 }) = 131056 := by decide

/-- Section 2.5: the false variants not refuted above. -/
theorem test_false_variants :
    uf8Encode 32 ≠ 0x0F ∧ uf8Encode 1008 ≠ 0x5F ∧ uf8Encode 16 ≠ 0x0F ∧ uf8Encode 20 ≠ 0x14 ∧
      uf8Encode 4294967280 = 0xFF ∧ uf8Decode 0x10 ≠ 17 ∧ uf8Decode 0x10 ≠ 32 := by decide

/-- Section 2.4, rule R72: from the offset of 15, step 3 steps down ten times to exponent 5. -/
theorem test_step_three_from_fifteen :
    stepDown 1000 15 (offset 15) = { exponent := 5, overflow := 496 } := by decide

/-- The two named boundaries of spec/00_scope.md section 4 are what their definitions there say. -/
theorem test_named_boundaries :
    uf8Max = (uf8Decode 0xFF).toNat ∧ uf8Sat = (offset 15).toNat + 16 * 2 ^ 15 := by decide

/-- Log entry 4: a word given by width and number is run by the very next step from reset. -/
theorem test_fetch_word_runs_next :
    (stateOf (step (State.reset.withFetchWord 8 0xA7))).bind State.output = some (.value 23536) ∧
      (stateOf (step (State.reset.withFetchWord 32 23536))).bind State.output =
        some (.code 0xA7) := by decide

/-- Rule R11: the step after an evaluation leaves nothing of it. -/
theorem test_nothing_held_after_evaluation :
    stateOf (step (deliver (.value 1000) (.code 0x5F))) = some State.reset := by decide

/-! ### Witnesses: concrete states and operands that meet the statements' hypotheses -/

/-- `LzcCountsLeadingZeros`, `LzcBoundsItsInput`, `MsbIsHighestSetBit`: both ends of the words other than 0,
and a position that bounds one. -/
theorem witness_nonzero_word :
    (1 : Word) ≠ 0 ∧ (0xFFFFFFFF : Word) ≠ 0 ∧ 2 ^ 31 ≤ (0x80000000 : Word).toNat ∧
      (0x80000000 : Word).toNat < 2 ^ (31 + 1) ∧ 2 ^ 0 ≤ (1 : Word).toNat ∧
      (1 : Word).toNat < 2 ^ (0 + 1) := by decide

/-- `OffsetsFollowRecurrence`: the least and the greatest exponent with a next one. -/
theorem witness_exponent_with_next :
    (0 : Nibble) ≠ 15 ∧ (14 : Nibble) ≠ 15 ∧ offset 14 = 262128 ∧ offset 15 = 524272 := by decide

/-- `BucketsPartitionValues`, `Uf8encClosedForm`: values at both ends of buckets, and at the end of the
slots. -/
theorem witness_bucket_ends :
    InBucket 0 0 ∧ InBucket 0 15 ∧ InBucket 1 16 ∧ InBucket 14 524271 ∧ InBucket 15 524272 ∧
      InBucket 15 0xFFFFFFFF ∧ InBucket 15 1048559 ∧ (1048559 : Word).toNat < 1048560 ∧
      1048560 ≤ (1048560 : Word).toNat := by decide

/-- `SlotsPartitionValues`: the ends of the slot of `0x5F` and of the last slot. -/
theorem witness_slot_ends :
    InSlot 0x5F 976 ∧ InSlot 0x5F 1007 ∧ ¬ InSlot 0x5F 1008 ∧ InSlot 0xFF 1048559 ∧
      ¬ InSlot 0xFF 1048560 := by decide

/-- `DecodeStrictlyIncreasing`, `EncodeNonDecreasing`: codes and values in order, the last pair of codes and
a pair across a bucket boundary. -/
theorem witness_ordered_codes_and_values :
    (0xFE : Code) < 0xFF ∧ (0xFF : Code).toNat = (0xFE : Code).toNat + 1 ∧ (0x1F : Code) < 0x20 ∧
      uf8Decode 0x5F = uf8Decode 0x5F ∧ (47 : Word) ≤ 48 := by decide

/-- `FastPathIsExact`: the last value of the fast path. -/
theorem witness_fast_path : (15 : Word).toNat < 16 ∧ ¬ (16 : Word).toNat < 16 := by decide

/-- `EstimateOfStepTwo`, `EncoderRobustToEstimate`: a value at each end of each case. -/
theorem witness_estimate_cases :
    (16 ≤ (16 : Word).toNat ∧ (31 : Word).toNat < 32) ∧
      (32 ≤ (32 : Word).toNat ∧ (1048575 : Word).toNat < 2 ^ 20) ∧
      2 ^ 20 ≤ (1048576 : Word).toNat ∧ estimate 31 = 0 ∧ estimate 32 = 1 ∧ estimate 1048575 = 15 ∧
      estimate 1048576 = 15 := by decide

/-- `EncoderInvariant`, `NoCarryNoBorrow`: consistent pairs at both ends, one not above a value. -/
theorem witness_consistent_pair :
    Bucket.Consistent { exponent := 0, overflow := 0 } ∧
      Bucket.Consistent { exponent := 15, overflow := 524272 } ∧ (524272 : Word) ≤ 524272 ∧
      Bucket.Consistent { exponent := 1, overflow := 16 } ∧ (15 : Word).toNat ≤ 15 ∧
      (clampMantissa 0xFFFFFFFF).toNat = 15 := by decide

/-- `EncoderLoopCounts`: values on which step 4 advances, at both ends of the powers of two. -/
theorem witness_step_four_advances :
    (16 ≤ (16 : Word).toNat ∧ 2 ^ 5 - 16 ≤ (16 : Word).toNat ∧ (16 : Word).toNat < 2 ^ 5) ∧
      (16 ≤ (524287 : Word).toNat ∧ 2 ^ 19 - 16 ≤ (524287 : Word).toNat ∧
        (524287 : Word).toNat < 2 ^ 19) := by decide

/-- `EncoderLoopCounts`: a value on which step 4 does not advance. -/
theorem witness_step_four_stays (k : Nat) (h5 : 5 ≤ k) (h19 : k ≤ 19) :
    ¬ (2 ^ k - 16 ≤ (1000 : Word).toNat ∧ (1000 : Word).toNat < 2 ^ k) := by
  interval_cases k <;> decide

/-- `SaturatesExactlyFromMaximum`, `QuantisationIsGreatestBelow`, `QuantisationErrorBounds`: values at each
side of the largest decoded value, a code not above a value, and the last value of a slot. -/
theorem witness_quantised_values :
    1015792 ≤ (1015792 : Word).toNat ∧ ¬ 1015792 ≤ (1015791 : Word).toNat ∧ uf8Decode 0x5F ≤ 1000 ∧
      uf8Decode 0x5F = 976 ∧ (1048559 : Word).toNat < 1048560 := by decide

/-- `StepRunsDecodedInstruction`, `StepWithNothingPresentedIsEmpty`: a state with a word presented and not
yet evaluated, and a settled one without a word. -/
theorem witness_presented_words :
    ((present (some (.code 0xA7)) State.reset).input = some (.code 0xA7) ∧
      (present (some (.code 0xA7)) State.reset).output = none) ∧
      State.reset.input = none ∧ State.reset.Settled := by decide

/-- `StepKeepsOutputsSettled`: a settled state whose step answers a next state, through an evaluation. -/
theorem witness_settled_step :
    (present (some (.value 1000)) State.reset).Settled ∧
      step (present (some (.value 1000)) State.reset) =
        .next (deliver (.value 1000) (.code (uf8Encode 1000))) :=
  ⟨by decide, rfl⟩

/-- `EvaluationsReorderAndRepeat`: two orders of one set of input words, of three units, a word twice. -/
theorem witness_reordered_words :
    [InputWord.x 1, .code 0x5F, .value 7, .x 1].Perm [.value 7, .x 1, .x 1, .code 0x5F] := by decide

/-- `RawPatternsReadOrRejected`: a width that is not the unit's, and numbers at each side of the width. -/
theorem witness_raw_patterns :
    7 ≠ Config.inputWidth .decoder ∧ 8 = Config.inputWidth .decoder ∧ 2 ^ 8 ≤ 256 ∧ 255 < 2 ^ 8 ∧
      32 = Config.inputWidth .counter ∧ 4294967295 < 2 ^ 32 := by decide

/-- `DecodeOfEncode`, `FetchWordIsRunNext`: an operation, well formed, read from a bare width and number. -/
theorem witness_table_word :
    decodeTableWord 8 0xFF = some (.uf8dec 15 15) ∧ (Instr.uf8dec 15 15).wellFormed = true ∧
      decodeTableWord 32 0xFFFFFFFF = some (.uf8enc 0xFFFFFFFF) := by decide

end Sys2Proof.Tests
end

namespace Sys2Proof

/-- The two spellings of the exponent agree: the shift of rule R34 is the slice `code[7:4]`. -/
theorem exponentField_eq_slice (c : Code) : exponentField c = c.extractLsb 7 4 := by
  ext i hi
  simp [exponentField]

/-- The two spellings of the mantissa agree: the mask of rule R34 is the slice `code[3:0]`. -/
theorem mantissaField_eq_slice (c : Code) : mantissaField c = c.extractLsb 3 0 := by
  apply BitVec.eq_of_toNat_eq
  rw [mantissaField_toNat, BitVec.extractLsb_toNat]
  rfl

theorem shift_four_toNat (c : Code) : (c >>> 4).toNat = (exponentField c).toNat := by
  rw [exponentField_toNat, BitVec.toNat_ushiftRight, Nat.shiftRight_eq_div_pow]

theorem low_mask_toNat (c : Code) : (c &&& 0x0F#8).toNat = (mantissaField c).toNat := by
  rw [mantissaField_toNat, BitVec.toNat_and]
  exact Nat.and_two_pow_sub_one_eq_mod c.toNat 4

/-- A code is put together from its fields with the exponent of weight 16 (rule R21). -/
theorem code_toNat_eq_fields (c : Code) :
    c.toNat = 16 * (exponentField c).toNat + (mantissaField c).toNat := by
  rw [exponentField_toNat, mantissaField_toNat, Nat.div_add_mod]

/-- Settles O38: the fields the decoder reads are the slices, the shifted and masked code, and the two
digits of the code in base 16. -/
theorem codeFieldsLayout : Obligations.CodeFieldsLayout := fun c =>
  ⟨exponentField c, mantissaField c, rfl, exponentField_eq_slice c, mantissaField_eq_slice c,
    (shift_four_toNat c).symm, (low_mask_toNat c).symm, code_toNat_eq_fields c⟩

end Sys2Proof

namespace Sys2Proof

open Sys2Proof.Machine

/-- No operation has a reserved or illegal operand (rule R37). -/
theorem Instr.wellFormed_eq_true : ∀ i : Instr, i.wellFormed = true
  | .lzc x => (Laws.InputWordFits.lzc x).1
  | .uf8dec e m => (Laws.InputWordFits.uf8dec e m).1
  | .uf8enc v => (Laws.InputWordFits.uf8enc v).1

theorem Machine.exec_completes (i : Instr) (s : State) : ∃ t, exec i s = .next t := by
  cases i with
  | lzc x => exact ⟨_, exec_lzc s x⟩
  | uf8dec e m => exact ⟨_, exec_uf8dec s e m⟩
  | uf8enc v => exact ⟨_, exec_uf8enc s v⟩

/-- The value of two fields as a number, `(16 + m)·2^e - 16` without subtraction: neither the shift nor
the sum of rule R50 leaves 32 bits. -/
theorem Machine.fieldsValue_toNat_add (e m : Nibble) :
    (fieldsValue e m).toNat + 16 = (16 + m.toNat) * 2 ^ e.toNat := by
  have he := two_pow_le_of_le_fifteen (Nat.le_of_lt_succ e.isLt)
  have hoff : (offset e).toNat + 16 = 16 * 2 ^ e.toNat := atOffset_offset e
  have hprod : m.toNat * 2 ^ e.toNat ≤ 15 * 32768 :=
    Nat.mul_le_mul (Nat.le_of_lt_succ m.isLt) he
  simp only [fieldsValue, BitVec.toNat_add, BitVec.toNat_shiftLeft, BitVec.toNat_setWidth,
    Nat.shiftLeft_eq, Nat.mod_eq_of_lt (show m.toNat < 2 ^ 32 by omega), Nat.add_mul]
  omega

/-- The value of two fields lies in the bucket of its exponent: not below the bucket's offset, and below
the offset of the next bucket. -/
theorem Machine.fieldsValue_bucket_bounds (e m : Nibble) :
    16 * 2 ^ e.toNat ≤ (fieldsValue e m).toNat + 16 ∧
      (fieldsValue e m).toNat + 16 < 16 * 2 ^ (e.toNat + 1) := by
  have hm : m.toNat < 16 := m.isLt
  rw [fieldsValue_toNat_add, Nat.pow_succ', ← Nat.mul_assoc]
  exact ⟨Nat.mul_le_mul_right _ (by omega),
    Nat.mul_lt_mul_of_pos_right (by omega) (Nat.two_pow_pos _)⟩

/-- A value determines its fields: it lies in one bucket only, which gives the exponent, and within the
bucket the value grows with the mantissa. -/
theorem Machine.fieldsValue_injective {e f m n : Nibble} (h : fieldsValue e m = fieldsValue f n) :
    e = f ∧ m = n := by
  obtain ⟨hle, hlt⟩ := fieldsValue_bucket_bounds e m
  obtain ⟨hle', hlt'⟩ := fieldsValue_bucket_bounds f n
  rw [← h] at hle' hlt'
  obtain rfl : e = f := BitVec.eq_of_toNat_eq <|
    bucket_exponent_unique _ _ _ hle hle' (fun _ => hlt) (fun _ => hlt')
      (Nat.le_of_lt_succ e.isLt) (Nat.le_of_lt_succ f.isLt)
  have hmul : (16 + m.toNat) * 2 ^ e.toNat = (16 + n.toNat) * 2 ^ e.toNat := by
    rw [← fieldsValue_toNat_add, ← fieldsValue_toNat_add, h]
  exact ⟨rfl, BitVec.eq_of_toNat_eq
    (Nat.add_left_cancel (Nat.eq_of_mul_eq_mul_right (Nat.two_pow_pos _) hmul))⟩

theorem code_eq_of_fields_eq {c d : Code} (he : exponentField c = exponentField d)
    (hm : mantissaField c = mantissaField d) : c = d :=
  BitVec.eq_of_toNat_eq (by rw [code_toNat_eq_fields c, code_toNat_eq_fields d, he, hm])

theorem Machine.uf8Decode_injective {c d : Code} (h : uf8Decode c = uf8Decode d) : c = d :=
  have ⟨he, hm⟩ := fieldsValue_injective h
  code_eq_of_fields_eq he hm

/-- Settles O39: every operation is well formed and completes, and a decoded value determines the fields
of its code. -/
theorem everyPatternIsLegal : Obligations.EveryPatternIsLegal :=
  ⟨fun w s => ⟨(decode w).wellFormed_eq_true, exec_completes (decode w) s⟩,
    fun _ _ => uf8Decode_injective⟩

end Sys2Proof

namespace Sys2Proof

open Sys2Proof.Machine

/-- Why the loop of rule R40 stops: no bit is left to test, or it has found a one bit. -/
theorem Machine.lzc_eq_or_getLsbD (x : Word) : lzc x = 32 ∨ x.getLsbD (31 - lzc x) = true :=
  have ⟨hle, hone, _⟩ := lzc_spec x
  hle.eq_or_lt.imp_right hone

/-- Settles O1: the operation delivers `lzc x`, which has one bit at its place or is 32, only zero bits
before it, and the logarithm of a word other than 0. -/
theorem lzcCountsLeadingZeros : Obligations.LzcCountsLeadingZeros := fun x s =>
  have ⟨hle, _, hzeros⟩ := lzc_spec x
  ⟨lzc x, hle, exec_lzc s x, lzc_eq_or_getLsbD x, hzeros, lzc_eq_log2 x⟩

end Sys2Proof

namespace Sys2Proof

open Sys2Proof.Machine

theorem nibble_toNat_le (e : Nibble) : e.toNat ≤ 15 := Nat.le_of_lt_succ e.isLt

theorem nibble_ne_fifteen_iff (e : Nibble) : e ≠ 15 ↔ e.toNat < 15 :=
  BitVec.toNat_ne.trans (nibble_toNat_le e).lt_iff_ne.symm

theorem nibble_succ_toNat {e : Nibble} (h : e ≠ 15) : (e + 1).toNat = e.toNat + 1 := by
  have hlt := (nibble_ne_fifteen_iff e).1 h
  rw [BitVec.toNat_add]
  exact Nat.mod_eq_of_lt (show e.toNat + 1 < 16 by omega)

/-- The offset of an exponent is one word only. -/
theorem Machine.AtOffset.eq {e : Nat} {o o' : Word} (h : AtOffset e o) (h' : AtOffset e o') :
    o = o' :=
  BitVec.eq_of_toNat_eq (Nat.add_right_cancel (h.trans h'.symm))

theorem Machine.atOffset_offset_succ {e : Nibble} (h : e ≠ 15) :
    AtOffset (e.toNat + 1) (offset (e + 1)) :=
  nibble_succ_toNat h ▸ atOffset_offset (e + 1)

theorem Machine.offset_succ_toNat {e : Nibble} (h : e ≠ 15) :
    (offset (e + 1)).toNat = (offset e).toNat + 16 * 2 ^ e.toNat := by
  have hoff : (offset e).toNat + 16 = 16 * 2 ^ e.toNat := atOffset_offset e
  have hsucc : (offset (e + 1)).toNat + 16 = 16 * 2 ^ (e.toNat + 1) := atOffset_offset_succ h
  rw [Nat.pow_succ] at hsucc
  omega

theorem Machine.offset_succ {e : Nibble} (h : e ≠ 15) : offset (e + 1) = nextOffset (offset e) :=
  (atOffset_offset_succ h).eq (AtOffset_next (nibble_toNat_le e) (atOffset_offset e))

theorem Machine.offset_eq_prevOffset {e : Nibble} (h : e ≠ 15) :
    offset e = prevOffset (offset (e + 1)) :=
  (atOffset_offset e).eq (AtOffset_prev (atOffset_offset_succ h))

/-- Settles O7: the encoder's forward and inverse steps lead from the offset of an exponent to that of
the next and back. -/
theorem offsetsFollowRecurrence : Obligations.OffsetsFollowRecurrence :=
  ⟨rfl, fun _ he => ⟨offset_succ_toNat he, offset_succ he, offset_eq_prevOffset he⟩, rfl⟩

end Sys2Proof

namespace Sys2Proof

open Sys2Proof.Machine

theorem codeOfFields_fields (c : Code) : codeOfFields (exponentField c) (mantissaField c) = c :=
  BitVec.eq_of_toNat_eq (by rw [codeOfFields_toNat, ← code_toNat_eq_fields])

theorem Machine.exec_decode_code (c : Code) (s : State) :
    exec (decode (.code c)) s = .next (deliver (.code c) (.value (uf8Decode c))) := by
  rw [decode, exec_uf8dec, codeOfFields_fields, uf8Decode]

/-- The decoded value in the shifts and the mask of rule R50, on the whole code and not its fields. -/
theorem Machine.uf8Decode_eq_shifts (c : Code) :
    uf8Decode c = ((c &&& 0x0F#8).setWidth 32 <<< (c >>> 4).toNat) +
      ((0x7FFF#32 >>> (15 - (c >>> 4).toNat)) <<< 4) := by
  have hmask : (mantissaField c).setWidth 32 = (c &&& 0x0F#8).setWidth 32 :=
    BitVec.eq_of_toNat_eq (by rw [BitVec.toNat_setWidth, BitVec.toNat_setWidth, low_mask_toNat])
  rw [shift_four_toNat, ← hmask]
  rfl

/-- The left shift of rule R51 moves no one bit out, the seed having fifteen bits. -/
theorem Machine.offset_toNat_eq_seed (e : Nibble) :
    (offset e).toNat = 0x7FFF / 2 ^ (15 - e.toNat) * 16 := by
  have hle : 0x7FFF / 2 ^ (15 - e.toNat) ≤ 0x7FFF := Nat.div_le_self _ _
  have hseed : offsetSeed.toNat = 0x7FFF := rfl
  rw [offset, BitVec.toNat_shiftLeft, BitVec.toNat_ushiftRight, hseed, Nat.shiftRight_eq_div_pow,
    Nat.shiftLeft_eq]
  omega

/-- The sum of rule R50 does not carry. -/
theorem Machine.fieldsValue_toNat (e m : Nibble) :
    (fieldsValue e m).toNat = m.toNat * 2 ^ e.toNat + (offset e).toNat := by
  have hoff : (offset e).toNat + 16 = 16 * 2 ^ e.toNat := atOffset_offset e
  have hval := fieldsValue_toNat_add e m
  rw [Nat.add_mul] at hval
  omega

theorem Machine.uf8Decode_toNat (c : Code) :
    (uf8Decode c).toNat =
      (c.toNat % 16) * 2 ^ (c.toNat / 16) + 0x7FFF / 2 ^ (15 - c.toNat / 16) * 16 := by
  rw [uf8Decode, fieldsValue_toNat, offset_toNat_eq_seed, exponentField_toNat, mantissaField_toNat]

/-- Settles O5: the operation delivers `uf8Decode c`, which is the rule's word and the rule's number. -/
theorem uf8decComputesValue : Obligations.Uf8decComputesValue := fun c s =>
  ⟨uf8Decode c, exec_decode_code c s, uf8Decode_eq_shifts c, uf8Decode_toNat c⟩

end Sys2Proof

namespace Sys2Proof

open Sys2Proof.Machine

/-- A bucket by its numbers, written without subtraction; bucket 15 has no end below `2^32`. -/
theorem Machine.inBucket_iff (e : Nibble) (v : Word) :
    InBucket e v ↔ 16 * 2 ^ e.toNat ≤ v.toNat + 16 ∧
      (e.toNat < 15 → v.toNat + 16 < 16 * 2 ^ (e.toNat + 1)) := by
  have hoff : (offset e).toNat + 16 = 16 * 2 ^ e.toNat := atOffset_offset e
  refine and_congr ?_ (imp_congr_ctx (nibble_ne_fifteen_iff e) fun he => ?_)
  · rw [BitVec.le_def]
    omega
  · have hsucc : (offset (e + 1)).toNat + 16 = 16 * 2 ^ (e.toNat + 1) :=
      atOffset_offset_succ ((nibble_ne_fifteen_iff e).2 he)
    rw [BitVec.lt_def]
    omega

/-- Every value is in some bucket: steps 3 and 4 of the encoder, started at exponent 0, end in it. -/
theorem Machine.exists_inBucket (v : Word) : ∃ e : Nibble, InBucket e v := by
  obtain ⟨hat, h15, hle, hend⟩ := correct_spec v 0 0#32 (Nat.zero_le 15) atOffset_zero
  rw [AtOffset] at hat
  refine ⟨BitVec.ofNat 4 (correct v 0 0#32).exponent, (inBucket_iff _ v).2 ?_⟩
  rw [BitVec.toNat_ofNat, Nat.mod_eq_of_lt (Nat.lt_succ_of_le h15)]
  exact ⟨by omega, hend⟩

theorem Machine.inBucket_unique {e f : Nibble} {v : Word} (he : InBucket e v) (hf : InBucket f v) :
    e = f := by
  obtain ⟨hle, hlt⟩ := (inBucket_iff e v).1 he
  obtain ⟨hle', hlt'⟩ := (inBucket_iff f v).1 hf
  exact BitVec.eq_of_toNat_eq (bucket_exponent_unique v.toNat _ _ hle hle' hlt hlt'
    (nibble_toNat_le e) (nibble_toNat_le f))

theorem Machine.existsUnique_inBucket (v : Word) : ∃! e : Nibble, InBucket e v :=
  have ⟨e, he⟩ := exists_inBucket v
  ⟨e, he, fun _ hf => inBucket_unique hf he⟩

theorem Machine.inBucket_iff_of_ne_fifteen {e : Nibble} (he : e ≠ 15) (v : Word) :
    InBucket e v ↔ 16 * 2 ^ e.toNat - 16 ≤ v.toNat ∧ v.toNat < 32 * 2 ^ e.toNat - 16 := by
  have hlt := (nibble_ne_fifteen_iff e).1 he
  rw [inBucket_iff, Nat.pow_succ]
  omega

theorem Machine.inBucket_fifteen_iff (v : Word) : InBucket 15 v ↔ 524272 ≤ v.toNat := by
  have h15 : (15 : Nibble).toNat = 15 := rfl
  rw [inBucket_iff, h15]
  omega

/-- Slot `m` of a bucket holds the values whose distance from the offset has quotient `m` by the slot
size. -/
theorem slot_iff_div_eq (offs m v : Nat) {size : Nat} (hsize : 0 < size) :
    (offs + m * size ≤ v ∧ v < offs + (m + 1) * size) ↔ offs ≤ v ∧ (v - offs) / size = m := by
  rw [Nat.div_eq_iff hsize, Nat.add_mul]
  omega

theorem Machine.slots_end_le (e : Nibble) : (offset e).toNat + 16 * 2 ^ e.toNat ≤ 1048560 := by
  have hoff : (offset e).toNat + 16 = 16 * 2 ^ e.toNat := atOffset_offset e
  have hpow := two_pow_le_of_le_fifteen (nibble_toNat_le e)
  omega

/-- A value of a bucket is below the end of its slots, but for bucket 15 from 1048560 up. -/
theorem Machine.lt_slots_end_of_inBucket {e : Nibble} {v : Word} (hv : InBucket e v)
    (hend : e ≠ 15 ∨ v.toNat < 1048560) : v.toNat < (offset e).toNat + 16 * 2 ^ e.toNat := by
  by_cases he : e = 15
  · subst he
    exact hend.resolve_left (not_not_intro rfl)
  · rw [← offset_succ_toNat he]
    exact hv.2 he

/-- The mantissa of the slot is the quotient, less than 16 as there are sixteen slots. -/
theorem Machine.existsUnique_slot {e : Nibble} {v : Word} (hv : InBucket e v)
    (hend : e ≠ 15 ∨ v.toNat < 1048560) :
    ∃! m : Nibble, (offset e).toNat + m.toNat * 2 ^ e.toNat ≤ v.toNat ∧
      v.toNat < (offset e).toNat + (m.toNat + 1) * 2 ^ e.toNat := by
  have hpos := Nat.two_pow_pos e.toNat
  have hle : (offset e).toNat ≤ v.toNat := hv.1
  have hlt := lt_slots_end_of_inBucket hv hend
  have hquot : (v.toNat - (offset e).toNat) / 2 ^ e.toNat < 16 :=
    (Nat.div_lt_iff_lt_mul hpos).2 (by omega)
  simp only [slot_iff_div_eq _ _ _ hpos]
  refine ⟨BitVec.ofNat 4 ((v.toNat - (offset e).toNat) / 2 ^ e.toNat),
    ⟨hle, (Nat.mod_eq_of_lt hquot).symm⟩, fun m hm => ?_⟩
  rw [hm.2, BitVec.ofNat_toNat, BitVec.setWidth_eq]

/-- Every slot ends at 1048560 or below. -/
theorem Machine.lt_of_lt_slot_end {e m : Nibble} {v : Nat}
    (h : v < (offset e).toNat + (m.toNat + 1) * 2 ^ e.toNat) : v < 1048560 := by
  have hend := slots_end_le e
  have hslot : (m.toNat + 1) * 2 ^ e.toNat ≤ 16 * 2 ^ e.toNat := Nat.mul_le_mul_right _ m.isLt
  omega

/-- Settles O8: steps 3 and 4 of the encoder find a value's bucket, the bucket's numbers determine it,
and the quotient by the slot size is the slot. -/
theorem bucketsPartitionValues : Obligations.BucketsPartitionValues := fun v =>
  ⟨existsUnique_inBucket v, fun _ he => inBucket_iff_of_ne_fifteen he v, inBucket_fifteen_iff v,
    fun _ => existsUnique_slot,
    fun hv _ _ hslot => Nat.not_lt.2 hv (lt_of_lt_slot_end hslot.2)⟩

end Sys2Proof

namespace Sys2Proof

open Sys2Proof.Machine

theorem exponentField_codeOfFields (e m : Nibble) : exponentField (codeOfFields e m) = e := by
  have hm : m.toNat < 16 := m.isLt
  apply BitVec.eq_of_toNat_eq
  rw [exponentField_toNat, codeOfFields_toNat]
  omega

theorem mantissaField_codeOfFields (e m : Nibble) : mantissaField (codeOfFields e m) = m := by
  have hm : m.toNat < 16 := m.isLt
  apply BitVec.eq_of_toNat_eq
  rw [mantissaField_toNat, codeOfFields_toNat]
  omega

/-- The slot of a code is the slot of its mantissa in the bucket of its exponent. -/
theorem Machine.inSlot_codeOfFields_iff (e m : Nibble) (v : Word) :
    InSlot (codeOfFields e m) v ↔ (offset e).toNat + m.toNat * 2 ^ e.toNat ≤ v.toNat ∧
      v.toNat < (offset e).toNat + (m.toNat + 1) * 2 ^ e.toNat := by
  rw [InSlot, uf8Decode, exponentField_codeOfFields, mantissaField_codeOfFields,
    fieldsValue_toNat, Nat.add_mul]
  omega

/-- The end of a code's slot, counted from the decoded value. -/
theorem Machine.slot_end_le (d : Code) :
    (uf8Decode d).toNat + 2 ^ (exponentField d).toNat ≤ 1048560 := by
  have hpos := Nat.two_pow_pos (exponentField d).toNat
  refine Nat.le_of_pred_lt (lt_of_lt_slot_end (e := exponentField d) (m := mantissaField d) ?_)
  rw [uf8Decode, fieldsValue_toNat, Nat.pred_eq_sub_one, Nat.add_mul]
  omega

theorem Machine.eq_zero_of_inBucket_of_lt {e : Nibble} {v : Word} (he : InBucket e v)
    (hv : v.toNat < 16) : e = 0 :=
  inBucket_unique he ((inBucket_iff 0 v).2 ⟨Nat.le_add_left _ _, fun _ => by
    show v.toNat + 16 < 32
    omega⟩)

/-- Steps 3 and 4 end at the bucket of the value, from any exponent and its offset (rules R68
and R72). -/
theorem Machine.correct_eq_of_inBucket {e : Nibble} {v : Word} (he : InBucket e v) {start : Nat}
    {overflow : Word} (hstart : start ≤ 15) (h : AtOffset start overflow) :
    correct v start overflow = ⟨e.toNat, offset e⟩ := by
  obtain ⟨hat, h15, hle, hend⟩ := correct_spec v start overflow hstart h
  obtain ⟨hlo, hhi⟩ := (inBucket_iff e v).1 he
  have hexp : (correct v start overflow).exponent = e.toNat :=
    bucket_exponent_unique v.toNat _ _ (hat ▸ Nat.add_le_add_right hle 16) hlo hend hhi h15
      (nibble_toNat_le e)
  rw [hexp] at hat
  exact congrArg₂ Bucket.mk hexp (hat.eq (atOffset_offset e))

/-- Step 5 and the clamp give the exponent and the clamped quotient by the slot size. -/
theorem Machine.bucketCode_toNat {e : Nibble} {v : Word} (he : InBucket e v) :
    (bucketCode v ⟨e.toNat, offset e⟩).toNat =
      16 * e.toNat + min 15 ((v.toNat - (offset e).toNat) / 2 ^ e.toNat) := by
  have hclamp := clampMantissa_toNat (rawMantissa v ⟨e.toNat, offset e⟩)
  rw [bucketCode, resultCode_toNat _ _ (nibble_toNat_le e) (hclamp ▸ Nat.min_le_left _ _), hclamp,
    rawMantissa_toNat v ⟨e.toNat, offset e⟩ he.1]

/-- The encoder's code as a number: the value's bucket, and its quotient by the slot size clamped
to 15. -/
theorem Machine.uf8Encode_toNat {e : Nibble} {v : Word} (he : InBucket e v) :
    (uf8Encode v).toNat = 16 * e.toNat + min 15 ((v.toNat - (offset e).toNat) / 2 ^ e.toNat) := by
  rw [uf8Encode]
  split
  · next hfast =>
    have hv : v.toNat < 16 := hfast
    obtain rfl := eq_zero_of_inBucket_of_lt he hv
    have h0 : (0 : Nibble).toNat = 0 := rfl
    have hoff : (offset 0).toNat = 0 := rfl
    rw [lowByte_toNat, h0, hoff]
    omega
  · have hacc := accumulate_atOffset (estimate v) 0 0#32 atOffset_zero
      ((Nat.zero_add _).trans_le (estimate_le v))
    rw [Nat.zero_add] at hacc
    rw [correct_eq_of_inBucket he (estimate_le v) hacc, bucketCode_toNat he]

/-- Below the end of the slots the clamp does nothing, and the code is that of the value's slot. -/
theorem Machine.inSlot_uf8Encode {v : Word} (hv : v.toNat < 1048560) : InSlot (uf8Encode v) v := by
  obtain ⟨e, he⟩ := exists_inBucket v
  obtain ⟨m, hm, -⟩ := existsUnique_slot he (.inr hv)
  have hquot : (v.toNat - (offset e).toNat) / 2 ^ e.toNat = m.toNat :=
    ((slot_iff_div_eq _ _ _ (Nat.two_pow_pos _)).1 hm).2
  have hcode : uf8Encode v = codeOfFields e m := BitVec.eq_of_toNat_eq <| by
    rw [uf8Encode_toNat he, hquot, Nat.min_eq_right (nibble_toNat_le m), codeOfFields_toNat]
  exact hcode ▸ (inSlot_codeOfFields_iff e m v).2 hm

/-- From the end of the slots up the quotient is 16 or more, and the clamp of rule R67 gives `0xFF`. -/
theorem Machine.uf8Encode_eq_max {v : Word} (hv : 1048560 ≤ v.toNat) : uf8Encode v = 0xFF := by
  have he : InBucket 15 v := (inBucket_fifteen_iff v).2 (by omega)
  have h15 : (15 : Nibble).toNat = 15 := rfl
  have hoff : (offset 15).toNat = 524272 := rfl
  have hcode := uf8Encode_toNat he
  rw [h15, hoff] at hcode
  refine BitVec.eq_of_toNat_eq (hcode.trans ?_)
  show _ = 255
  omega

/-- Settles O11: below 1048560, where the slots end, the encoder finds the slot, and from there up it
answers `0xFF`. -/
theorem uf8encFindsTheSlot : Obligations.Uf8encFindsTheSlot := fun v s =>
  ⟨uf8Encode v, exec_uf8enc s v, (lt_or_ge v.toNat 1048560).imp inSlot_uf8Encode fun hv =>
    ⟨uf8Encode_eq_max hv, fun d => (slot_end_le d).trans hv⟩⟩

end Sys2Proof

namespace Sys2Proof

open Sys2Proof.Machine

/-- The output word of an operation is its unit's function of its input word, and no more is in the
state: the state the operation ran in is not read. -/
theorem Machine.exec_eq_deliver (i : Instr) (s : State) :
    exec i s = .next (deliver (encode i) (unitFunction (encode i))) := by
  cases i with
  | lzc x => rfl
  | uf8dec e m =>
    rw [exec_uf8dec, encode, unitFunction, uf8Decode, exponentField_codeOfFields,
      mantissaField_codeOfFields]
  | uf8enc v => rfl

/-- Settles O33: the state an operation answers is written in terms of the operation alone. -/
theorem outputDependsOnInputOnly : Obligations.OutputDependsOnInputOnly := fun i s s' =>
  ⟨_, _, exec_eq_deliver i s, exec_eq_deliver i s', deliver_output _ _⟩

end Sys2Proof

namespace Sys2Proof

open Sys2Proof.Machine

/-- The decoded value of a code, read from its two digits in base 16. -/
theorem Machine.uf8Decode_toNat_add (c : Code) :
    (uf8Decode c).toNat + 16 = (16 + c.toNat % 16) * 2 ^ (c.toNat / 16) := by
  rw [uf8Decode, fieldsValue_toNat_add, exponentField_toNat, mantissaField_toNat]

/-- The slot of a code ends where the slot of the next code begins (rule R85): within a bucket the
mantissa rises by one, and from mantissa 15 the next bucket follows. -/
theorem Machine.uf8Decode_succ {c d : Code} (h : d.toNat = c.toNat + 1) :
    (uf8Decode d).toNat = (uf8Decode c).toNat + 2 ^ (exponentField c).toNat := by
  have hc := uf8Decode_toNat_add c
  have hd := uf8Decode_toNat_add d
  rw [exponentField_toNat]
  rcases Nat.lt_or_ge (c.toNat % 16) 15 with hm | hm
  · rw [show d.toNat / 16 = c.toNat / 16 by omega, show d.toNat % 16 = c.toNat % 16 + 1 by omega,
      ← Nat.add_assoc, Nat.succ_mul] at hd
    omega
  · rw [show c.toNat % 16 = 15 by omega] at hc
    rw [show d.toNat / 16 = c.toNat / 16 + 1 by omega, show d.toNat % 16 = 0 by omega,
      Nat.pow_succ] at hd
    omega

/-- No slot reaches into the slot of a greater code. -/
theorem Machine.slot_end_le_uf8Decode {c d : Code} (h : c < d) :
    (uf8Decode c).toNat + 2 ^ (exponentField c).toNat ≤ (uf8Decode d).toNat := by
  obtain ⟨k, hk⟩ : ∃ k, d.toNat = c.toNat + k + 1 := Nat.exists_eq_add_of_lt h
  clear h
  induction k generalizing d with
  | zero => exact (uf8Decode_succ hk).ge
  | succ k ih =>
    have hprev : (BitVec.ofNat 8 (c.toNat + k + 1)).toNat = c.toNat + k + 1 :=
      Nat.mod_eq_of_lt (by have := d.isLt; omega)
    have hstep := uf8Decode_succ (d := d) (hk.trans (congrArg (· + 1) hprev.symm))
    exact (ih hprev).trans (hstep ▸ Nat.le_add_right _ _)

theorem Machine.uf8Decode_lt {c d : Code} (h : c < d) : uf8Decode c < uf8Decode d :=
  BitVec.lt_def.2 <|
    (Nat.lt_add_of_pos_right (Nat.two_pow_pos _)).trans_le (slot_end_le_uf8Decode h)

theorem Machine.uf8Decode_le {c d : Code} (h : c ≤ d) : uf8Decode c ≤ uf8Decode d := by
  rcases BitVec.lt_trichotomy c d with hlt | rfl | hgt
  · exact BitVec.le_of_lt (uf8Decode_lt hlt)
  · exact BitVec.le_refl _
  · exact absurd h (BitVec.not_le.2 hgt)

/-- Settles O10: the slot of a code ends at the value of the next code and below those of all greater
codes. -/
theorem decodeStrictlyIncreasing : Obligations.DecodeStrictlyIncreasing := fun c d s =>
  ⟨uf8Decode c, uf8Decode d, exec_decode_code c s, exec_decode_code d s, uf8Decode_lt,
    uf8Decode_injective, uf8Decode_succ⟩

end Sys2Proof

namespace Sys2Proof

open Sys2Proof.Machine

/-- A slot that holds a value ends above it, so a code with the value in its slot is not below another
one's. -/
theorem Machine.le_of_uf8Decode_le_of_inSlot {c d : Code} {v : Word} (hc : InSlot c v)
    (hd : uf8Decode d ≤ v) : d ≤ c :=
  BitVec.not_lt.1 fun hlt =>
    Nat.not_lt.2 ((slot_end_le_uf8Decode hlt).trans hd) hc.2

theorem Machine.inSlot_unique {c d : Code} {v : Word} (hc : InSlot c v) (hd : InSlot d v) : c = d :=
  BitVec.le_antisymm (le_of_uf8Decode_le_of_inSlot hd hc.1) (le_of_uf8Decode_le_of_inSlot hc hd.1)

theorem Machine.lt_of_inSlot {c : Code} {v : Word} (h : InSlot c v) : v.toNat < 1048560 :=
  h.2.trans_le (slot_end_le c)

theorem Machine.exists_inSlot_iff (v : Word) : v.toNat < 1048560 ↔ ∃ c : Code, InSlot c v :=
  ⟨fun hv => ⟨uf8Encode v, inSlot_uf8Encode hv⟩, fun ⟨_, hc⟩ => lt_of_inSlot hc⟩

/-- Mantissa 0 of a bucket is the code after mantissa 15 of the bucket before. -/
theorem codeOfFields_succ_zero {e : Nibble} (h : e ≠ 15) :
    (codeOfFields (e + 1) 0).toNat = (codeOfFields e 15).toNat + 1 := by
  rw [codeOfFields_toNat, codeOfFields_toNat, nibble_succ_toNat h]
  rfl

theorem Machine.uf8Decode_bucket_boundary {e : Nibble} (h : e ≠ 15) :
    (uf8Decode (codeOfFields (e + 1) 0)).toNat =
      (uf8Decode (codeOfFields e 15)).toNat + 2 ^ e.toNat := by
  rw [uf8Decode_succ (codeOfFields_succ_zero h), exponentField_codeOfFields]

/-- Settles O9: each slot ends where the next code's begins, the encoder finds the slot of every value
below 1048560, and every slot ends there or before. -/
theorem slotsPartitionValues : Obligations.SlotsPartitionValues :=
  ⟨fun _ _ _ => inSlot_unique, exists_inSlot_iff, existsUnique_inBucket,
    fun _ => uf8Decode_bucket_boundary, rfl, rfl⟩

end Sys2Proof

namespace Sys2Proof

open Sys2Proof.Machine

/-- The fast path of step 1 (rule R61). -/
theorem Machine.uf8Encode_of_lt {v : Word} (h : v.toNat < 16) : uf8Encode v = v.setWidth 8 :=
  if_pos (show v < fastPathBound from h)

/-- The slots of exponent 0 hold one value each, the code's own number. -/
theorem Machine.uf8Decode_setWidth_of_lt {v : Word} (h : v.toNat < 16) :
    uf8Decode (v.setWidth 8) = v := by
  have hval := uf8Decode_toNat_add (v.setWidth 8)
  rw [BitVec.toNat_setWidth, Nat.mod_eq_of_lt (show v.toNat < 2 ^ 8 by omega), Nat.mod_eq_of_lt h,
    Nat.div_eq_of_lt h] at hval
  exact BitVec.eq_of_toNat_eq (by omega)

/-- Settles O12: the encoder's fast path takes the value's low byte, and a code of exponent 0 decodes to
its own number. -/
theorem fastPathIsExact : Obligations.FastPathIsExact := fun v s hv =>
  ⟨by rw [exec_uf8enc, uf8Encode_of_lt hv, deliver],
    by rw [exec_decode_code, uf8Decode_setWidth_of_lt hv, deliver]⟩

end Sys2Proof

namespace Sys2Proof

open Sys2Proof.Machine

theorem Machine.inSlot_uf8Decode (c : Code) : InSlot c (uf8Decode c) :=
  ⟨le_rfl, Nat.lt_add_of_pos_right (Nat.two_pow_pos _)⟩

/-- The decoded value is the least of its own slot, and the encoder finds that slot (rule R86). -/
@[simp] theorem Machine.uf8Encode_uf8Decode (c : Code) : uf8Encode (uf8Decode c) = c :=
  have hc := inSlot_uf8Decode c
  inSlot_unique (inSlot_uf8Encode (lt_of_inSlot hc)) hc

/-- Settles O21: the encoder finds a decoded value's own slot. -/
theorem roundTripOfCodes : Obligations.RoundTripOfCodes :=
  ⟨fun c s => ⟨_, _, uf8Decode c, exec_decode_code c s, rfl, exec_uf8enc _ _, by
      rw [deliver_output, uf8Encode_uf8Decode]⟩,
    fun c => ⟨uf8Decode c, uf8Encode_uf8Decode c⟩, fun _ _ => uf8Decode_injective⟩

end Sys2Proof

namespace Sys2Proof

open Sys2Proof.Machine

theorem code_le_max (c : Code) : c ≤ 0xFF := Nat.le_of_lt_succ c.isLt

/-- Encoding reaches a code exactly where the value reaches the code's decoded value: the code of a value
is the greatest one that decodes to no more than it. -/
theorem Machine.le_uf8Encode_iff (c : Code) (v : Word) : c ≤ uf8Encode v ↔ uf8Decode c ≤ v := by
  rcases Nat.lt_or_ge v.toNat 1048560 with hv | hv
  · have hslot := inSlot_uf8Encode hv
    exact ⟨fun hc => BitVec.le_trans (uf8Decode_le hc) hslot.1,
      le_of_uf8Decode_le_of_inSlot hslot⟩
  · have hlt := lt_of_inSlot (inSlot_uf8Decode c)
    exact iff_of_true (uf8Encode_eq_max hv ▸ code_le_max c) (hlt.le.trans hv)

theorem Machine.uf8Decode_uf8Encode_le (v : Word) : uf8Decode (uf8Encode v) ≤ v :=
  (le_uf8Encode_iff _ v).1 (BitVec.le_refl _)

theorem Machine.uf8Decode_uf8Encode_greatest {d : Code} {v : Word} (h : uf8Decode d ≤ v) :
    uf8Decode d ≤ uf8Decode (uf8Encode v) :=
  uf8Decode_le ((le_uf8Encode_iff d v).2 h)

theorem Machine.uf8Decode_uf8Encode_eq_iff (v : Word) :
    uf8Decode (uf8Encode v) = v ↔ ∃ d : Code, uf8Decode d = v :=
  ⟨fun h => ⟨_, h⟩, fun ⟨d, hd⟩ => by rw [← hd, uf8Encode_uf8Decode]⟩

/-- From the greatest decoded value up the code is the greatest code, `0xFF` (rule R67). -/
theorem Machine.uf8Encode_eq_max_of_le {v : Word} (hv : 1015792 ≤ v.toNat) : uf8Encode v = 0xFF :=
  BitVec.le_antisymm (code_le_max _) ((le_uf8Encode_iff 0xFF v).2 hv)

/-- Settles O22: the code of a value is the greatest code that decodes to no more than it, and decoding
is monotone. -/
theorem quantisationIsGreatestBelow : Obligations.QuantisationIsGreatestBelow := fun v s =>
  ⟨_, _, uf8Encode v, uf8Decode (uf8Encode v), exec_uf8enc s v, rfl, exec_decode_code _ _, rfl,
    uf8Decode_uf8Encode_le v, fun _ => uf8Decode_uf8Encode_greatest, uf8Decode_uf8Encode_eq_iff v,
    fun hv => by rw [uf8Encode_eq_max_of_le hv]; rfl⟩

end Sys2Proof

namespace Sys2Proof

open Sys2Proof.Machine

/-- With a word pending, a step is the evaluation of the operation the word stands for (decision D1). -/
theorem Machine.step_of_pending_eq_some {s : State} {w : InputWord} (h : pending s = some w) :
    step s = exec (decode w) s := by
  rw [step, h]

/-- With no word pending there is no evaluation to make, and the state becomes the empty one (rule R11). -/
theorem Machine.step_of_pending_eq_none {s : State} (h : pending s = none) :
    step s = .next State.reset := by
  rw [step, h]

theorem Machine.step_completes (s : State) : ∃ t, step s = .next t := by
  cases h : pending s with
  | none => exact ⟨_, step_of_pending_eq_none h⟩
  | some w => exact step_of_pending_eq_some h ▸ exec_completes (decode w) s

/-- Settles O29: every operation completes, and a step is either an evaluation or the return to the empty
state; the table of causes has no row, so neither has `Fault` a constructor. -/
theorem nothingRaisesAnException : Obligations.NothingRaisesAnException :=
  ⟨exec_completes, step_completes, nofun⟩

end Sys2Proof

namespace Sys2Proof

open Sys2Proof.Machine

theorem encode_decode (w : InputWord) : encode (decode w) = w := by
  cases w with
  | x w => rfl
  | code c => rw [decode, encode, codeOfFields_fields]
  | value v => rfl

theorem Machine.exec_decode (w : InputWord) (s : State) :
    exec (decode w) s = .next (deliver w (unitFunction w)) := by
  rw [exec_eq_deliver, encode_decode]

/-- All that a step can do: evaluate the pending word, or, with none, return to the empty state.
-/
theorem Machine.step_cases {s t : State} (h : step s = .next t) :
    (∃ w, pending s = some w ∧ t = deliver w (unitFunction w)) ∨
      (pending s = none ∧ t = State.reset) := by
  cases hp : pending s with
  | none =>
    rw [step_of_pending_eq_none hp] at h
    exact .inr ⟨rfl, (Host.Outcome.next.inj h).symm⟩
  | some w =>
    rw [step_of_pending_eq_some hp, exec_decode] at h
    exact .inl ⟨w, rfl, (Host.Outcome.next.inj h).symm⟩

theorem Machine.reset_settled : State.reset.Settled := .inl reset_output

theorem Machine.deliver_unitFunction_settled (w : InputWord) :
    (deliver w (unitFunction w)).Settled := .inr rfl

/-- Settles O30: a step delivers the pending word with its unit's function of it, or no word at
all. -/
theorem stepKeepsOutputsSettled : Obligations.StepKeepsOutputsSettled := fun s t _ h => by
  obtain ⟨w, -, rfl⟩ | ⟨-, rfl⟩ := step_cases h
  · exact deliver_unitFunction_settled w
  · exact reset_settled

end Sys2Proof

namespace Sys2Proof

open Sys2Proof.Machine

theorem decode_encode (i : Instr) : decode (encode i) = i := by
  cases i with
  | lzc x => rfl
  | uf8dec e m => rw [encode, decode, exponentField_codeOfFields, mantissaField_codeOfFields]
  | uf8enc v => rfl

/-- Every operation's input word is one of its own unit's port. -/
theorem inputWordFits : ∀ i : Instr, Laws.InputWordFits.Statement i
  | .lzc x => Laws.InputWordFits.lzc x
  | .uf8dec e m => Laws.InputWordFits.uf8dec e m
  | .uf8enc v => Laws.InputWordFits.uf8enc v

theorem unitOfInput_encode (i : Instr) : unitOfInput (encode i) = i.unit :=
  (inputWordFits i).2.1

theorem inputBits_encode_lt (i : Instr) :
    inputBits (encode i) < 2 ^ Config.inputWidth i.unit :=
  (inputWordFits i).2.2

theorem inputOfNat_inputBits (w : InputWord) : inputOfNat (unitOfInput w) (inputBits w) = w := by
  cases w <;> simp [inputOfNat, unitOfInput, inputBits]

theorem decodeBits_of_width_ne {u : BlockUnit} {nbits : Nat} (h : nbits ≠ Config.inputWidth u)
    (w : Nat) : decodeBits u nbits w = .rejected .wrongWidth :=
  if_neg (by simpa [widthFits] using h)

theorem decodeBits_of_le (u : BlockUnit) {w : Nat} (h : 2 ^ Config.inputWidth u ≤ w) :
    decodeBits u (Config.inputWidth u) w = .rejected .doesNotFit := by
  simp [decodeBits, widthFits, numberFits, h]

theorem decodeBits_of_lt (u : BlockUnit) {w : Nat} (h : w < 2 ^ Config.inputWidth u) :
    decodeBits u (Config.inputWidth u) w = .instr (decode (inputOfNat u w)) := by
  simp [decodeBits, widthFits, numberFits, h]

theorem decodeBits_inputBits_encode (i : Instr) :
    decodeBits i.unit (Config.inputWidth i.unit) (inputBits (encode i)) = .instr i := by
  rw [decodeBits_of_lt _ (inputBits_encode_lt i), ← unitOfInput_encode, inputOfNat_inputBits,
    decode_encode]

/-- Settles O37: the fields of a code and the code give each other back, and the words of the
other two units are their operands. -/
theorem decodeOfEncode : Obligations.DecodeOfEncode :=
  ⟨fun i _ => ⟨decode_encode i, decodeBits_inputBits_encode i⟩, encode_decode⟩

end Sys2Proof

namespace Sys2Proof

theorem unit_decode (w : InputWord) : (decode w).unit = unitOfInput w := by
  rw [← unitOfInput_encode, encode_decode]

theorem unitOfInput_inputOfNat (u : BlockUnit) (w : Nat) : unitOfInput (inputOfNat u w) = u := by
  cases u <;> rfl

/-- A number that fits the port keeps its bits on it. -/
theorem inputBits_inputOfNat (u : BlockUnit) {w : Nat} (h : w < 2 ^ Config.inputWidth u) :
    inputBits (inputOfNat u w) = w := by
  cases u <;> exact Nat.mod_eq_of_lt h

/-- Settles O40: the reader tests the width, then the number, and what it reads is the operation
of the word with those bits. -/
theorem rawPatternsReadOrRejected : Obligations.RawPatternsReadOrRejected := fun u nbits w => by
  refine ⟨fun hne => decodeBits_of_width_ne hne w, ?_, ?_⟩
  · rintro rfl hw
    exact decodeBits_of_le u hw
  · rintro rfl hw
    exact ⟨_, decodeBits_of_lt u hw, by rw [unit_decode, unitOfInput_inputOfNat],
      by rw [encode_decode, inputBits_inputOfNat u hw]⟩

/-- Settles O41: each pattern has its port's width, and its bits are the operands. -/
theorem sampleWordsDecode : Obligations.SampleWordsDecode :=
  ⟨decodeBits_inputBits_encode (.lzc 2032), decodeBits_inputBits_encode (.uf8dec 10 7),
    decodeBits_inputBits_encode (.uf8enc 1000000)⟩

end Sys2Proof

namespace Sys2Proof

open Sys2Proof.Machine

/-- Six bits hold every count, the greatest being 32 (rule R32). -/
theorem Machine.countWord_lzc_toNat (x : Word) : (countWord (lzc x)).toNat = lzc x :=
  Nat.mod_eq_of_lt (Nat.lt_of_le_of_lt (lzc_le x) (by decide))

/-- Above the first one bit that the count stops at there are only zeros. -/
theorem Machine.getLsbD_eq_false_of_lzc {x : Word} {i : Nat} (h : 31 - lzc x < i) :
    x.getLsbD i = false := by
  obtain ⟨-, -, hzeros⟩ := lzc_spec x
  rcases Nat.lt_or_ge i 32 with hi | hi
  · have hbit := hzeros (31 - i) (by omega)
    rwa [show 31 - (31 - i) = i by omega] at hbit
  · exact BitVec.getLsbD_of_ge x i hi

theorem Machine.lzc_eq_of_bounds {x : Word} {p : Nat} (h : x ≠ 0) (hlo : 2 ^ p ≤ x.toNat)
    (hhi : x.toNat < 2 ^ (p + 1)) : lzc x = 31 - p := by
  have hx : x.toNat ≠ 0 := BitVec.toNat_ne.1 h
  rw [lzc_eq_log2 x h, (Nat.log2_eq_iff hx).2 ⟨hlo, hhi⟩]

/-- Settles O3: the count stops at a one bit with only zeros above it, and the power of two of
that bit is the one below the word. -/
theorem lzcBoundsItsInput : Obligations.LzcBoundsItsInput := fun x s hx => by
  have hlt := lzc_lt_of_ne_zero x hx
  have hup := lzc_upper_bound x
  obtain ⟨-, hone, -⟩ := lzc_spec x
  refine ⟨countWord (lzc x), exec_lzc s x, ?_⟩
  rw [countWord_lzc_toNat]
  exact ⟨by omega, hone hlt, fun _ => getLsbD_eq_false_of_lzc, lzc_lower_bound x hlt,
    by rwa [show 31 - lzc x + 1 = 32 - lzc x by omega],
    fun _ _ => lzc_eq_of_bounds hx⟩

theorem Machine.msb_zero : msb 0 = -1 := rfl

theorem Machine.msb_eq_log2 {x : Word} (h : x ≠ 0) : msb x = (x.toNat.log2 : Int) := by
  have hlog : x.toNat.log2 < 32 := (Nat.log2_lt (BitVec.toNat_ne.1 h)).2 x.isLt
  rw [msb, lzc_eq_log2 x h]
  omega

/-- Settles O4: the count is between 0 and 32, and of a word other than 0 it is 31 less the
logarithm. -/
theorem msbIsHighestSetBit : Obligations.MsbIsHighestSetBit := fun x => by
  have hle := lzc_le x
  have hmsb : msb x = 31 - (lzc x : Int) := rfl
  exact ⟨by omega, by omega, msb_eq_log2, fun h => h ▸ msb_zero⟩

/-- Settles O2: the loop of rule R40 finds no one bit and ends at the count of decision D3. -/
theorem lzcOfZeroIsThirtyTwo : Obligations.LzcOfZeroIsThirtyTwo := fun s =>
  ⟨exec_lzc s 0, msb_zero⟩

end Sys2Proof

namespace Sys2Proof

open Sys2Proof.Machine

/-- The greatest value is that of exponent and mantissa 15. -/
theorem Machine.fieldsValue_toNat_le (e m : Nibble) : (fieldsValue e m).toNat ≤ 1015792 := by
  have hm := nibble_toNat_le m
  have hprod : (16 + m.toNat) * 2 ^ e.toNat ≤ 31 * 32768 :=
    Nat.mul_le_mul (by omega) (two_pow_le_of_le_fifteen (nibble_toNat_le e))
  have hval := fieldsValue_toNat_add e m
  omega

theorem Machine.fieldsValue_getLsbD_of_ge (e m : Nibble) {i : Nat} (h : 20 ≤ i) :
    (fieldsValue e m).getLsbD i = false := by
  have hlt : (fieldsValue e m).toNat < 2 ^ 20 :=
    (fieldsValue_toNat_le e m).trans_lt (by decide)
  exact Nat.testBit_lt_two_pow (hlt.trans_le (Nat.pow_le_pow_right (by decide) h))

/-- Settles O6: the offset is `16·2^e - 16`, and adding it to the shifted mantissa does not carry.
-/
theorem uf8decClosedForm : Obligations.Uf8decClosedForm := fun e m s =>
  ⟨codeOfFields e m, fieldsValue e m, exec_uf8dec s e m, codeOfFields_toNat e m,
    Nat.eq_sub_of_add_eq (fieldsValue_toNat_add e m), fieldsValue_toNat_le e m,
    fun _ => fieldsValue_getLsbD_of_ge e m⟩

/-- Settles O13: steps 3 and 4 end at the value's bucket from any start, and step 5 divides. -/
theorem uf8encClosedForm : Obligations.Uf8encClosedForm := fun v _ s he =>
  ⟨uf8Encode v, exec_uf8enc s v, uf8Encode_toNat he⟩

/-- The clamped mantissa does not reach the exponent's bits. -/
theorem Machine.exponentField_uf8Encode {e : Nibble} {v : Word} (he : InBucket e v) :
    exponentField (uf8Encode v) = e := by
  apply BitVec.eq_of_toNat_eq
  rw [exponentField_toNat, uf8Encode_toNat he, Nat.mul_add_div (by decide),
    Nat.div_eq_of_lt (Nat.lt_succ_of_le (Nat.min_le_left 15 _)), Nat.add_zero]

theorem two_pow_add_four (n : Nat) : 2 ^ (n + 4) = 16 * 2 ^ n := by
  rw [Nat.pow_add, Nat.mul_comm]

/-- The bucket of a value is read from the highest one bit of `value + 16`. -/
theorem Machine.toNat_eq_log2_of_inBucket {e : Nibble} {v : Word} (he : InBucket e v) :
    e.toNat = min 15 ((v.toNat + 16).log2 - 4) := by
  obtain ⟨hlo, hhi⟩ := (inBucket_iff e v).1 he
  have h15 := nibble_toNat_le e
  have hne : v.toNat + 16 ≠ 0 := Nat.succ_ne_zero _
  have hlog : e.toNat + 4 ≤ (v.toNat + 16).log2 := (Nat.le_log2 hne).2 (by rwa [two_pow_add_four])
  have hend (h : e.toNat < 15) : (v.toNat + 16).log2 < e.toNat + 1 + 4 :=
    (Nat.log2_lt hne).2 (by rw [two_pow_add_four]; exact hhi h)
  omega

/-- Settles O14: the exponent of the code is the value's bucket. -/
theorem exponentWithoutSearch : Obligations.ExponentWithoutSearch := fun v s => by
  obtain ⟨e, he⟩ := exists_inBucket v
  exact ⟨uf8Encode v, exec_uf8enc s v,
    exponentField_uf8Encode he ▸ toNat_eq_log2_of_inBucket he⟩

theorem Machine.uf8Encode_eq_max_iff (v : Word) : uf8Encode v = 0xFF ↔ 1015792 ≤ v.toNat :=
  ⟨fun h => (le_uf8Encode_iff 0xFF v).1 (h ▸ BitVec.le_refl _), uf8Encode_eq_max_of_le⟩

/-- Settles O15: the code is the greatest one exactly where the value reaches its decoded value.
-/
theorem saturatesExactlyFromMaximum : Obligations.SaturatesExactlyFromMaximum := fun v s =>
  ⟨uf8Encode v, exec_uf8enc s v, uf8Encode_eq_max_iff v⟩

end Sys2Proof

namespace Sys2Proof

open Sys2Proof.Machine

/-- Settles O23: encoding a decoded code gives the code back, whichever value it came from. -/
theorem reencodingIsStable : Obligations.ReencodingIsStable := fun v s =>
  ⟨_, _, _, uf8Encode v, uf8Decode (uf8Encode v), exec_uf8enc s v, rfl, exec_decode_code _ _, rfl,
    exec_uf8enc _ _, by rw [deliver_output, uf8Encode_uf8Decode]⟩

theorem Machine.uf8Encode_le {v w : Word} (h : v ≤ w) : uf8Encode v ≤ uf8Encode w :=
  (le_uf8Encode_iff _ w).2 (BitVec.le_trans (uf8Decode_uf8Encode_le v) h)

/-- Settles O24: encoding is the upper adjoint of decoding, so it is monotone. -/
theorem encodeNonDecreasing : Obligations.EncodeNonDecreasing :=
  ⟨fun v w s h => ⟨uf8Encode v, uf8Encode w, exec_uf8enc s v, exec_uf8enc s w, uf8Encode_le h⟩,
    le_uf8Encode_iff⟩

/-- A decoded value is at least sixteen slots of its size, less 16. -/
theorem Machine.slots_le_uf8Decode (c : Code) :
    16 * 2 ^ (exponentField c).toNat ≤ (uf8Decode c).toNat + 16 := by
  rw [uf8Decode_toNat_add, exponentField_toNat]
  exact Nat.mul_le_mul_right _ (Nat.le_add_right _ _)

/-- Settles O25: the value is in the slot of its code, so the error is below the slot size `2^e`,
and the decoded value is at least `16·2^e - 16`. -/
theorem quantisationErrorBounds : Obligations.QuantisationErrorBounds := fun v s hv => by
  obtain ⟨hle, hlt⟩ := inSlot_uf8Encode hv
  have hslots := slots_le_uf8Decode (uf8Encode v)
  exact ⟨uf8Encode v, exec_uf8enc s v, hle, by omega, by omega⟩

end Sys2Proof

namespace Sys2Proof

open Sys2Proof.Machine

theorem Machine.unitOfOutput_unitFunction (w : InputWord) :
    unitOfOutput (unitFunction w) = unitOfInput w := by
  cases w <;> rfl

/-- Settles O32: the input word is one of the operation's unit, and a unit's function stays on its
unit. -/
theorem evaluationWritesItsUnitOnly : Obligations.EvaluationWritesItsUnitOnly := fun i s =>
  ⟨unitFunction (encode i), exec_eq_deliver i s, unitOfInput_encode i,
    (unitOfOutput_unitFunction _).trans (unitOfInput_encode i)⟩

/-- Settles O34: the operation that a word decodes to has that word as its input word. -/
theorem evaluationGivesUnitFunction : Obligations.EvaluationGivesUnitFunction := exec_decode

/-- Settles O26: a word presented without an output word is pending. -/
theorem stepRunsDecodedInstruction : Obligations.StepRunsDecodedInstruction :=
  fun s w hin hout => step_of_pending_eq_some ((pending_eq_some s w).2 ⟨hin, hout⟩)

theorem Machine.pending_eq_none_of_input {s : State} (h : s.input = none) : pending s = none := by
  cases hp : pending s with
  | none => rfl
  | some w => exact absurd (h.symm.trans ((pending_eq_some s w).1 hp).1) nofun

theorem Machine.eq_reset_of_settled {s : State} (h : s.input = none) (hs : s.Settled) :
    s = State.reset :=
  State.eq_of_fields _ _ h <| hs.elim id fun hout => by rw [hout, h]; rfl

/-- Settles O27: without an input word nothing is pending, and a settled state holds no output
word. -/
theorem stepWithNothingPresentedIsEmpty : Obligations.StepWithNothingPresentedIsEmpty := fun _ h =>
  ⟨step_of_pending_eq_none (pending_eq_none_of_input h), eq_reset_of_settled h⟩

theorem Machine.step_deliver (w : InputWord) (o : OutputWord) :
    step (deliver w o) = .next State.reset :=
  step_of_pending_eq_none (pending_deliver w o)

theorem Machine.step_reset : step State.reset = .next State.reset :=
  step_of_pending_eq_none pending_reset

/-- Whatever a step answers has no word pending. -/
theorem Machine.step_step {s t : State} (h : step s = .next t) : step t = .next State.reset := by
  obtain ⟨w, -, rfl⟩ | ⟨-, rfl⟩ := step_cases h
  · exact step_deliver w _
  · exact step_reset

/-- Settles O28: neither an evaluation nor the return to the empty state leaves a word pending. -/
theorem nothingIsHeldAfterEvaluation : Obligations.NothingIsHeldAfterEvaluation :=
  ⟨fun i s => ⟨_, exec_eq_deliver i s, step_deliver _ _⟩, fun s =>
    have ⟨t, ht⟩ := step_completes s
    ⟨t, ht, step_step ht⟩⟩

/-- Settles O31: the empty state has no output word to account for. -/
theorem resetIsSettled : Obligations.ResetIsSettled :=
  ⟨reset_settled, reset_input, reset_output⟩

end Sys2Proof

namespace Sys2Proof

open Sys2Proof.Machine

theorem Machine.step_present (w : InputWord) (s : State) :
    step (present (some w) s) = .next (deliver w (unitFunction w)) := by
  rw [step_of_pending_eq_some (pending_present (some w) s), exec_decode]

theorem Machine.evaluateAll_eq_map (ws : List InputWord) (s : State) :
    evaluateAll ws s = some (ws.map unitFunction) := by
  induction ws generalizing s with
  | nil => rfl
  | cons w ws ih => simp only [evaluateAll, step_present, deliver_output, ih, Option.map_some,
      List.map_cons]

/-- Settles O35, by induction on the list: each step answers the same state from any state before
it. -/
theorem sequenceOfEvaluationsIsPointwise : Obligations.SequenceOfEvaluationsIsPointwise :=
  evaluateAll_eq_map

/-- Settles O36: an operation does not read the state, and the pairs are a map of the input words.
-/
theorem evaluationsReorderAndRepeat : Obligations.EvaluationsReorderAndRepeat :=
  ⟨fun i j s => ⟨_, _, exec_eq_deliver i s, exec_eq_deliver j _, exec_eq_deliver j s⟩,
    fun i s => ⟨_, exec_eq_deliver i s, exec_eq_deliver i _⟩,
    fun ws ws' s s' h => ⟨_, _, evaluateAll_eq_map ws s, evaluateAll_eq_map ws' s', by
      simpa only [← List.map_prod_left_eq_zip] using h.map fun w => (w, unitFunction w)⟩⟩

theorem tableInput_of_decodeTableWord {nbits w : Nat} {i : Instr}
    (h : decodeTableWord nbits w = some i) : tableInput nbits w = some (encode i) := by
  rw [decodeTableWord] at h
  split at h
  · exact absurd h nofun
  · next word hword => rw [hword, ← Option.some.inj h, encode_decode]

/-- Settles O42: the word read by width and number is the operation's input word, presented. -/
theorem fetchWordIsRunNext : Obligations.FetchWordIsRunNext := fun s nbits w i h => by
  rw [State.withFetchWord, tableInput_of_decodeTableWord h, step_present]
  exact ⟨(exec_eq_deliver i _).symm, (exec_eq_deliver i s).symm⟩

end Sys2Proof

namespace Sys2Proof

open Sys2Proof.Machine

/-- The consistent pairs of rule R68 by their numbers. -/
theorem Machine.consistent_iff (b : Bucket) :
    b.Consistent ↔ b.exponent ≤ 15 ∧ AtOffset b.exponent b.overflow := by
  refine and_congr_right fun h15 => ?_
  have hat := atOffset_offset (BitVec.ofNat 4 b.exponent)
  rw [BitVec.toNat_ofNat, Nat.mod_eq_of_lt (Nat.lt_succ_of_le h15)] at hat
  exact ⟨fun h => h ▸ hat, fun h => h.eq hat⟩

/-- Step 2 ends at the estimate and its offset. -/
theorem Machine.accumulate_estimate_atOffset (v : Word) :
    AtOffset (estimate v) (accumulate (estimate v) 0#32) := by
  have hacc := accumulate_atOffset (estimate v) 0 0#32 atOffset_zero
    ((Nat.zero_add _).trans_le (estimate_le v))
  rwa [Nat.zero_add] at hacc

theorem Machine.inBucket_of_atOffset {e : Nat} {overflow v : Word} (h15 : e ≤ 15)
    (hat : AtOffset e overflow) (hle : overflow.toNat ≤ v.toNat)
    (hend : e < 15 → v.toNat + 16 < 16 * 2 ^ (e + 1)) : InBucket (BitVec.ofNat 4 e) v := by
  rw [inBucket_iff, BitVec.toNat_ofNat, Nat.mod_eq_of_lt (Nat.lt_succ_of_le h15)]
  exact ⟨hat ▸ Nat.add_le_add_right hle 16, hend⟩

/-- Settles O17: step 2 accumulates the estimate's offset, step 3 goes down to an offset not above
the value, and step 4 up to the last such one. -/
theorem encoderInvariant : Obligations.EncoderInvariant := fun v => by
  refine ⟨(consistent_iff _).2 ⟨estimate_le v, accumulate_estimate_atOffset v⟩,
    fun b hb => ?_, fun b hb hle => ?_⟩
  · obtain ⟨h15, hat⟩ := (consistent_iff b).1 hb
    obtain ⟨hat', hdown, hle, -⟩ := stepDown_spec v _ _ hat
    exact ⟨(consistent_iff _).2 ⟨hdown.trans h15, hat'⟩, hle⟩
  · obtain ⟨h15, hat⟩ := (consistent_iff b).1 hb
    obtain ⟨hat', -, h15', hle', hend⟩ :=
      stepUpBy_spec v (15 - b.exponent) _ _ (Nat.add_sub_of_le h15) hat hle
    exact ⟨(consistent_iff _).2 ⟨h15', hat'⟩, hle', inBucket_of_atOffset h15' hat' hle' hend⟩

theorem Machine.uf8Encode_of_ge {v : Word} (h : 16 ≤ v.toNat) : uf8Encode v =
    bucketCode v (correct v (estimate v) (accumulate (estimate v) 0#32)) :=
  if_neg (show ¬ v < fastPathBound from Nat.not_lt.2 h)

/-- Settles O19: steps 3 and 4 end at the value's bucket, from the estimate as from any exponent.
-/
theorem encoderRobustToEstimate : Obligations.EncoderRobustToEstimate := fun v g s hv => by
  obtain ⟨e, he⟩ := exists_inBucket v
  have hest := correct_eq_of_inBucket he (estimate_le v) (accumulate_estimate_atOffset v)
  have hg := correct_eq_of_inBucket he (nibble_toNat_le g) (atOffset_offset g)
  rw [exec_uf8enc, uf8Encode_of_ge hv, hest, hg, deliver]

end Sys2Proof

namespace Sys2Proof

open Sys2Proof.Machine

/-- Bit `k` or a higher one is set exactly from `2^k` up. -/
theorem Machine.le_msb_iff (x : Word) (k : Nat) : (k : Int) ≤ msb x ↔ 2 ^ k ≤ x.toNat := by
  by_cases hx : x = 0
  · subst hx
    exact iff_of_false (by rw [msb_zero]; omega) (Nat.not_le.2 (Nat.two_pow_pos k))
  · rw [msb_eq_log2 hx, Int.ofNat_le, Nat.le_log2 (BitVec.toNat_ne.1 hx)]

/-- Settles O16: the bounds 16, 32, `2^20` and `2^32` on the value are bounds on `msb`, from which
each case of step 2 gives the estimate. -/
theorem estimateOfStepTwo : Obligations.EstimateOfStepTwo := fun v hv => by
  have h4 := le_msb_iff v 4
  have h5 := le_msb_iff v 5
  have h20 := le_msb_iff v 20
  have h32 := le_msb_iff v 32
  have hlow := estimate_of_msb_lt v
  have hhigh := estimate_of_le_msb v
  have hv32 := v.isLt
  norm_num at h4 h5 h20 h32
  refine ⟨?_, ?_, ?_, ?_, ?_⟩ <;> omega

/-- The estimate is the highest one bit less 4, if not cut off at 15. -/
theorem Machine.estimate_bounds {v : Word} (hv : 16 ≤ v.toNat) :
    2 ^ (estimate v + 4) ≤ v.toNat ∧ (estimate v < 15 → v.toNat < 2 ^ (estimate v + 5)) := by
  have hlo := le_msb_iff v (estimate v + 4)
  have hhi := le_msb_iff v (estimate v + 5)
  have h4 : 4 ≤ msb v := (le_msb_iff v 4).2 hv
  rcases lt_or_ge (msb v) 5 with h | h
  · have hest := estimate_of_msb_lt v h
    omega
  · have hest := estimate_of_le_msb v h
    omega

/-- Step 3 stays where it is when the offset is not above the value. -/
theorem Machine.stepDown_of_le {v overflow : Word} (h : overflow.toNat ≤ v.toNat) (e : Nat) :
    stepDown v e overflow = ⟨e, overflow⟩ := by
  cases e with
  | zero => rfl
  | succ e => exact if_neg (show ¬ v < overflow from Nat.not_lt.2 h)

/-- Steps 3 and 4 from the estimate end at the one exponent whose bucket holds the value. -/
theorem Machine.correct_estimate_exponent {v : Word} {e : Nat} (h15 : e ≤ 15)
    (hlo : 2 ^ (e + 4) ≤ v.toNat + 16) (hhi : e < 15 → v.toNat + 16 < 2 ^ (e + 5)) :
    (correct v (estimate v) (accumulate (estimate v) 0#32)).exponent = e := by
  obtain ⟨hat, hc15, hle, hend⟩ :=
    correct_spec v _ _ (estimate_le v) (accumulate_estimate_atOffset v)
  rw [two_pow_add_four] at hlo
  exact bucket_exponent_unique v.toNat _ e (hat ▸ Nat.add_le_add_right hle 16) hlo hend
    (by rwa [← two_pow_add_four]) hc15 h15

end Sys2Proof

namespace Sys2Proof

open Sys2Proof.Machine

/-- On the top sixteen values below a power of two, `value + 16` has its highest one bit one place
above that of the value. -/
theorem Machine.correct_exponent_of_top_sixteen {v : Word} (hv : 16 ≤ v.toNat) {k : Nat}
    (h5 : 5 ≤ k) (h19 : k ≤ 19) (hlo : 2 ^ k - 16 ≤ v.toNat) (hhi : v.toNat < 2 ^ k) :
    (correct v (estimate v) (accumulate (estimate v) 0#32)).exponent = estimate v + 1 := by
  obtain ⟨hge, hlt⟩ := estimate_bounds hv
  obtain ⟨n, rfl⟩ : ∃ n, k = n + 1 := ⟨k - 1, by omega⟩
  have h16 : 2 ^ 4 ≤ 2 ^ n := Nat.pow_le_pow_right (by decide) (by omega)
  have hhalf : 2 ^ n ≤ v.toNat := by omega
  have hle : estimate v + 4 < n + 1 :=
    (Nat.pow_lt_pow_iff_right (by decide)).1 (hge.trans_lt hhi)
  have hlt' : n < estimate v + 5 :=
    (Nat.pow_lt_pow_iff_right (by decide)).1 (hhalf.trans_lt (hlt (by omega)))
  obtain rfl : n = estimate v + 4 := by omega
  refine correct_estimate_exponent (by omega) ?_ fun _ => ?_
  · rw [Nat.add_right_comm]
    omega
  · rw [show estimate v + 1 + 5 = estimate v + 4 + 1 + 1 by omega, Nat.pow_succ]
    omega

theorem Machine.correct_exponent_of_not_top_sixteen {v : Word} (hv : 16 ≤ v.toNat)
    (h : ∀ k, 5 ≤ k → k ≤ 19 → ¬ (2 ^ k - 16 ≤ v.toNat ∧ v.toNat < 2 ^ k)) :
    (correct v (estimate v) (accumulate (estimate v) 0#32)).exponent = estimate v := by
  obtain ⟨hge, hlt⟩ := estimate_bounds hv
  refine correct_estimate_exponent (estimate_le v) (by omega) fun h15 => ?_
  have hbelow := hlt h15
  have htop := h (estimate v + 5) (by omega) (by omega)
  omega

/-- The estimate's offset is not above the value, the highest one bit being counted exactly. -/
theorem Machine.accumulate_estimate_le {v : Word} (hv : 16 ≤ v.toNat) :
    (accumulate (estimate v) 0#32).toNat ≤ v.toNat := by
  obtain ⟨hge, -⟩ := estimate_bounds hv
  have hat : _ + 16 = _ := accumulate_estimate_atOffset v
  rw [two_pow_add_four] at hge
  omega

/-- Settles O20: the estimate is the value's bucket, or the one below it where adding 16 carries
into the next power of two. -/
theorem encoderLoopCounts : Obligations.EncoderLoopCounts := fun _ hv =>
  ⟨stepDown_of_le (accumulate_estimate_le hv) _,
    fun _ => correct_exponent_of_top_sixteen hv, correct_exponent_of_not_top_sixteen hv⟩

end Sys2Proof

namespace Sys2Proof

open Sys2Proof.Machine

theorem Machine.mantissa_shift_toNat (e m : Nibble) :
    (m.setWidth 32 <<< e.toNat).toNat = m.toNat * 2 ^ e.toNat := by
  have hprod : m.toNat * 2 ^ e.toNat ≤ 15 * 32768 :=
    Nat.mul_le_mul (nibble_toNat_le m) (two_pow_le_of_le_fifteen (nibble_toNat_le e))
  have hm := nibble_toNat_le m
  rw [BitVec.toNat_shiftLeft, BitVec.toNat_setWidth, Nat.shiftLeft_eq,
    Nat.mod_eq_of_lt (show m.toNat < 2 ^ 32 by omega), Nat.mod_eq_of_lt (by omega)]

theorem Machine.offset_toNat_eq_shift (e : Nibble) :
    (offset e).toNat = (offsetSeed >>> (15 - e.toNat)).toNat * 2 ^ 4 := by
  rw [offset_toNat_eq_seed, BitVec.toNat_ushiftRight, Nat.shiftRight_eq_div_pow]
  rfl

/-- The offsets of the exponents are small enough to be doubled. -/
theorem Machine.AtOffset.toNat_le {e : Nat} {overflow : Word} (he : e ≤ 15)
    (h : AtOffset e overflow) : overflow.toNat ≤ 524272 := by
  have hpow := two_pow_le_of_le_fifteen he
  rw [AtOffset] at h
  omega

theorem Machine.AtOffset.sixteen_le {e : Nat} {overflow : Word} (he : 1 ≤ e)
    (h : AtOffset e overflow) : 16 ≤ overflow.toNat := by
  have hpow : 2 ^ 1 ≤ 2 ^ e := Nat.pow_le_pow_right (by decide) he
  rw [AtOffset] at h
  omega

theorem Machine.shiftLeft_one_toNat {overflow : Word} (h : overflow.toNat ≤ 524272) :
    (overflow <<< 1).toNat = 2 * overflow.toNat := by
  rw [BitVec.toNat_shiftLeft, Nat.shiftLeft_eq]
  omega

theorem Machine.exponent_shift_toNat {e : Nat} (he : e ≤ 15) :
    (BitVec.ofNat 32 e <<< 4).toNat = e * 2 ^ 4 := by
  rw [BitVec.toNat_shiftLeft, BitVec.toNat_ofNat, Nat.shiftLeft_eq]
  omega

/-- Settles O18: every shifted or added number is bounded through the offset's `16·2^e - 16`, and
steps 3 and 4 end at an offset not above the value. -/
theorem noCarryNoBorrow : Obligations.NoCarryNoBorrow := by
  refine ⟨fun e m => ⟨mantissa_shift_toNat e m, nibble_toNat_le e, offset_toNat_eq_shift e,
    fieldsValue_toNat e m⟩, fun b hb => ?_, fun v => ?_, fun m => ?_, fun e m he hm => ?_⟩
  · obtain ⟨h15, hat⟩ := (consistent_iff b).1 hb
    have hle := hat.toNat_le h15
    exact ⟨shiftLeft_one_toNat hle, nextOffset_toNat _ (by omega), fun h1 =>
      have hge := hat.sixteen_le h1
      ⟨hge, prevOffset_toNat _ hge⟩⟩
  · obtain ⟨-, -, hle, -⟩ :=
      correct_spec v _ _ (estimate_le v) (accumulate_estimate_atOffset v)
    exact ⟨hle, BitVec.toNat_sub_of_le hle⟩
  · exact clampMantissa_toNat m ▸ Nat.min_le_left 15 m.toNat
  · have hshift := exponent_shift_toNat he
    exact ⟨hshift, by rw [resultCode_toNat e m he hm]; omega⟩

end Sys2Proof
